-- ==== Sys2Proof/Word.lean ====
section
/-! DEFINITION. The widths of the block's ports and registers (spec/00_scope.md section 5, rules R14, R24, R28, R60). -/

namespace Sys2Proof

/-- A configuration register, a history word, `cmd_data`, `rsp_data` or `rsp_aux`: 64 bits (R11, R14, R20). -/
abbrev Word := BitVec 64

/-- The command word: 32 bits (R61). -/
abbrev CmdWord := BitVec 32

/-- The LFSR register: 32 bits (R24). -/
abbrev Reg32 := BitVec 32

/-- A Wichmann-Hill register: 15 bits (R28). -/
abbrev Reg15 := BitVec 15

end Sys2Proof
end

