-- ==== Sys2Proof/Syntax.lean ====
section
/-! DEFINITION. The commands of the block as syntax: one constructor per row of spec/opcode_table.json
(spec/30_encoding.md rules R62, R63, R67; spec/20_memory.md rule R41). -/

namespace Sys2Proof

/-- The six engines, in the order of their numbers (R1, R62). -/
inductive Engine where
  | lcg | leh | lfg | lfsr | msq | wh
  deriving DecidableEq, Repr

/-- The LCG's configuration registers (R15). -/
inductive LcgReg where
  | mod | mul | inc | seed | obr
  deriving DecidableEq, Repr

/-- The Lehmer generator's configuration registers (R17). -/
inductive LehReg where
  | mod | mul | seed
  deriving DecidableEq, Repr

/-- The Lagged Fibonacci engine's registers; `hlen` is the counter HLEN, readable only (R19). -/
inductive LfgReg where
  | mod | j | k | op | hlen
  deriving DecidableEq, Repr

/-- The LFSR's configuration registers (R22). -/
inductive LfsrReg where
  | seed | mask
  deriving DecidableEq, Repr

/-- The Middle-Square engine's configuration registers (R25). -/
inductive MsqReg where
  | seed | digits | width
  deriving DecidableEq, Repr

/-- The Wichmann-Hill engine's configuration registers (R27). -/
inductive WhReg where
  | seed0 | seed1 | seed2
  deriving DecidableEq, Repr

/-- A cell of the configuration space: the 20 configuration registers and HLEN (R40, R41). -/
inductive CfgReg where
  | lcg (r : LcgReg)
  | leh (r : LehReg)
  | lfg (r : LfgReg)
  | lfsr (r : LfsrReg)
  | msq (r : MsqReg)
  | wh (r : WhReg)
  deriving DecidableEq, Repr

/-- The eight presets of the ROM, in the order of their numbers (R67, R100). -/
inductive Preset where
  | minstd | minstdRand | randu | zx81 | borland | glibc | posix | ranqd1
  deriving DecidableEq, Repr

/-- What the host presents on the command port: `cmd_word` and `cmd_data` (R60). -/
structure Command where
  word : CmdWord
  data : Word
  deriving DecidableEq, Repr

/-- The 18 commands (R63). WRCFG and HPUSH carry the data operand they take from `cmd_data` (R65). -/
inductive Instr where
  | wrcfg (r : CfgReg) (v : Word)
  | rdcfg (r : CfgReg)
  | ldpreLcg (p : Preset)
  | ldpreLeh (p : Preset)
  | consLcg
  | consLeh
  | consLfg
  | consLfsr
  | consMsq
  | consWh
  | advLcg
  | advLeh
  | advLfg
  | advLfsr
  | advMsq
  | advWh
  | hpush (v : Word)
  | hclr
  deriving DecidableEq, Repr

/-- The engine a configuration cell belongs to (R41). -/
def CfgReg.engine : CfgReg → Engine
  | .lcg _  => .lcg
  | .leh _  => .leh
  | .lfg _  => .lfg
  | .lfsr _ => .lfsr
  | .msq _  => .msq
  | .wh _   => .wh

/-- The engine a command is addressed to (R3, R62). -/
def Instr.engine : Instr → Engine
  | .wrcfg r _  => r.engine
  | .rdcfg r    => r.engine
  | .ldpreLcg _ => .lcg
  | .ldpreLeh _ => .leh
  | .consLcg    => .lcg
  | .consLeh    => .leh
  | .consLfg    => .lfg
  | .consLfsr   => .lfsr
  | .consMsq    => .msq
  | .consWh     => .wh
  | .advLcg     => .lcg
  | .advLeh     => .leh
  | .advLfg     => .lfg
  | .advLfsr    => .lfsr
  | .advMsq     => .msq
  | .advWh      => .wh
  | .hpush _    => .lfg
  | .hclr       => .lfg

/-- The CONS command of an engine (R63). -/
def Instr.cons : Engine → Instr
  | .lcg  => .consLcg
  | .leh  => .consLeh
  | .lfg  => .consLfg
  | .lfsr => .consLfsr
  | .msq  => .consMsq
  | .wh   => .consWh

/-- The ADV command of an engine (R63). -/
def Instr.adv : Engine → Instr
  | .lcg  => .advLcg
  | .leh  => .advLeh
  | .lfg  => .advLfg
  | .lfsr => .advLfsr
  | .msq  => .advMsq
  | .wh   => .advWh

end Sys2Proof
end

