-- ==== Sys2Proof/WellFormed.lean ====
section
/-! DEFINITION. Which terms of `Instr` are commands of the block: WRCFG to a writable register (R41, R63: HLEN is read only)
and LDPRE.LEH of a preset the Lehmer family has (R67, R101). Everything else is well formed by its type. -/

namespace Sys2Proof

/-- R41: every configuration register is writable; the counter HLEN is not. -/
def CfgReg.writable : CfgReg → Bool
  | .lfg .hlen => false
  | .lfg .mod | .lfg .j | .lfg .k | .lfg .op => true
  | .lcg _ | .leh _ | .lfsr _ | .msq _ | .wh _ => true

/-- R101: the Lehmer engine accepts the presets 0 to 3. -/
def Preset.forLehmer : Preset → Bool
  | .minstd | .minstdRand | .randu | .zx81 => true
  | .borland | .glibc | .posix | .ranqd1 => false

/-- A term that stands for a legal command. -/
def Instr.wf : Instr → Bool
  | .wrcfg r _  => r.writable
  | .rdcfg _    => true
  | .ldpreLcg _ => true
  | .ldpreLeh p => p.forLehmer
  | .consLcg | .consLeh | .consLfg | .consLfsr | .consMsq | .consWh => true
  | .advLcg | .advLeh | .advLfg | .advLfsr | .advMsq | .advWh => true
  | .hpush _    => true
  | .hclr       => true

end Sys2Proof
end

