-- ==== Sys2Proof/Decode.lean ====
section
/-! DEFINITION. The command word: its fields, the decoder (total, rejecting by name, spec/30_encoding.md rule R66), and the
encoder (R61, R63). -/

namespace Sys2Proof

/-! ## Numbers of engines, registers, presets and operations -/

/-- R62, from a number. -/
def Engine.ofNat? : Nat → Option Engine
  | 0 => some .lcg
  | 1 => some .leh
  | 2 => some .lfg
  | 3 => some .lfsr
  | 4 => some .msq
  | 5 => some .wh
  | _ => none

/-- R62, the engine's number. -/
def Engine.num : Engine → BitVec 4
  | .lcg  => 0
  | .leh  => 1
  | .lfg  => 2
  | .lfsr => 3
  | .msq  => 4
  | .wh   => 5

/-- R41, the map of the configuration space: engine and IDX to a cell. -/
def CfgReg.ofIndex? : Engine → Nat → Option CfgReg
  | .lcg, 0  => some (.lcg .mod)
  | .lcg, 1  => some (.lcg .mul)
  | .lcg, 2  => some (.lcg .inc)
  | .lcg, 3  => some (.lcg .seed)
  | .lcg, 4  => some (.lcg .obr)
  | .leh, 0  => some (.leh .mod)
  | .leh, 1  => some (.leh .mul)
  | .leh, 3  => some (.leh .seed)
  | .lfg, 0  => some (.lfg .mod)
  | .lfg, 1  => some (.lfg .j)
  | .lfg, 2  => some (.lfg .k)
  | .lfg, 3  => some (.lfg .op)
  | .lfg, 4  => some (.lfg .hlen)
  | .lfsr, 0 => some (.lfsr .seed)
  | .lfsr, 1 => some (.lfsr .mask)
  | .msq, 0  => some (.msq .seed)
  | .msq, 1  => some (.msq .digits)
  | .msq, 2  => some (.msq .width)
  | .wh, 0   => some (.wh .seed0)
  | .wh, 1   => some (.wh .seed1)
  | .wh, 2   => some (.wh .seed2)
  | _, _     => none

/-- R41, the IDX of a cell within its engine. -/
def CfgReg.index : CfgReg → BitVec 8
  | .lcg .mod    => 0
  | .lcg .mul    => 1
  | .lcg .inc    => 2
  | .lcg .seed   => 3
  | .lcg .obr    => 4
  | .leh .mod    => 0
  | .leh .mul    => 1
  | .leh .seed   => 3
  | .lfg .mod    => 0
  | .lfg .j      => 1
  | .lfg .k      => 2
  | .lfg .op     => 3
  | .lfg .hlen   => 4
  | .lfsr .seed  => 0
  | .lfsr .mask  => 1
  | .msq .seed   => 0
  | .msq .digits => 1
  | .msq .width  => 2
  | .wh .seed0   => 0
  | .wh .seed1   => 1
  | .wh .seed2   => 2

/-- R67, from a number. -/
def Preset.ofNat? : Nat → Option Preset
  | 0 => some .minstd
  | 1 => some .minstdRand
  | 2 => some .randu
  | 3 => some .zx81
  | 4 => some .borland
  | 5 => some .glibc
  | 6 => some .posix
  | 7 => some .ranqd1
  | _ => none

/-- R67, the preset's number. -/
def Preset.num : Preset → BitVec 8
  | .minstd     => 0
  | .minstdRand => 1
  | .randu      => 2
  | .zx81       => 3
  | .borland    => 4
  | .glibc      => 5
  | .posix      => 6
  | .ranqd1     => 7

/-- The seven operations (R63). -/
inductive Opc where
  | wrcfg | rdcfg | ldpre | cons | adv | hpush | hclr
  deriving DecidableEq, Repr

/-- R63, from an operation code. -/
def Opc.ofNat? : Nat → Option Opc
  | 1 => some .wrcfg
  | 2 => some .rdcfg
  | 3 => some .ldpre
  | 4 => some .cons
  | 5 => some .adv
  | 6 => some .hpush
  | 7 => some .hclr
  | _ => none

/-- R63, the operation code. -/
def Opc.num : Opc → BitVec 8
  | .wrcfg => 1
  | .rdcfg => 2
  | .ldpre => 3
  | .cons  => 4
  | .adv   => 5
  | .hpush => 6
  | .hclr  => 7

/-- R66 test 3: which engines an operation may name. -/
def Opc.legalEngine : Opc → Engine → Bool
  | .wrcfg, _ | .rdcfg, _ | .cons, _ | .adv, _ => true
  | .ldpre, .lcg | .ldpre, .leh => true
  | .ldpre, _ => false
  | .hpush, .lfg | .hclr, .lfg => true
  | .hpush, _ | .hclr, _ => false

/-! ## The fields of a command word (R61) -/

/-- Bits 31:24. -/
def Command.opc (c : Command) : BitVec 8 := c.word.extractLsb' 24 8
/-- Bits 23:20. -/
def Command.eng (c : Command) : BitVec 4 := c.word.extractLsb' 20 4
/-- Bits 19:16, reserved, must be 0. -/
def Command.z1 (c : Command) : BitVec 4 := c.word.extractLsb' 16 4
/-- Bits 15:8. -/
def Command.idx (c : Command) : BitVec 8 := c.word.extractLsb' 8 8
/-- Bits 7:0, reserved, must be 0. -/
def Command.z0 (c : Command) : BitVec 8 := c.word.extractLsb' 0 8

/-- The one layout of R61: `cmd_word = OPC * 2^24 + ENG * 2^20 + IDX * 2^8`. -/
def mkWord (opc : BitVec 8) (eng : BitVec 4) (idx : BitVec 8) : CmdWord :=
  BitVec.ofNat 32 (opc.toNat * 2 ^ 24 + eng.toNat * 2 ^ 20 + idx.toNat * 2 ^ 8)

/-! ## Decoding -/

/-- Why a command word is illegal: the four tests of R66, in their order. -/
inductive Illegal where
  /-- Test 1: Z1 or Z0 is not 0. -/
  | reservedField
  /-- Test 2: OPC is not in 0x01 to 0x07. -/
  | opcode
  /-- Test 3: ENG is not legal for OPC. -/
  | engine
  /-- Test 4: IDX is not legal for OPC and ENG. -/
  | index
  deriving DecidableEq, Repr

/-- R66 test 4 and the command selected: what IDX means for an operation on a legal engine. -/
def decodeOperand (o : Opc) (e : Engine) (idx : Nat) (data : Word) : Option Instr :=
  match o with
  | .wrcfg =>
    match CfgReg.ofIndex? e idx with
    | some r => if r.writable then some (.wrcfg r data) else none
    | none   => none
  | .rdcfg => (CfgReg.ofIndex? e idx).map .rdcfg
  | .ldpre =>
    match e, Preset.ofNat? idx with
    | .lcg, some p => some (.ldpreLcg p)
    | .leh, some p => if p.forLehmer then some (.ldpreLeh p) else none
    | _, _         => none
  | .cons  => if idx = 0 then some (.cons e) else none
  | .adv   => if idx = 0 then some (.adv e) else none
  | .hpush => if idx = 0 then some (.hpush data) else none
  | .hclr  => if idx = 0 then some .hclr else none

/-- The decoder (R66): total; the first failing test names the rejection. `cmd_data` is looked at by WRCFG and HPUSH
only (R65). -/
def decode (c : Command) : Except Illegal Instr :=
  if c.z1 = 0 ∧ c.z0 = 0 then
    match Opc.ofNat? c.opc.toNat with
    | none   => .error .opcode
    | some o =>
      match Engine.ofNat? c.eng.toNat with
      | none   => .error .engine
      | some e =>
        if o.legalEngine e then
          match decodeOperand o e c.idx.toNat c.data with
          | some i => .ok i
          | none   => .error .index
        else .error .engine
  else .error .reservedField

/-! ## Encoding -/

/-- The command word of a command (R63). -/
def Instr.word : Instr → CmdWord
  | .wrcfg r _  => mkWord Opc.wrcfg.num r.engine.num r.index
  | .rdcfg r    => mkWord Opc.rdcfg.num r.engine.num r.index
  | .ldpreLcg p => mkWord Opc.ldpre.num Engine.lcg.num p.num
  | .ldpreLeh p => mkWord Opc.ldpre.num Engine.leh.num p.num
  | .consLcg    => mkWord Opc.cons.num Engine.lcg.num 0
  | .consLeh    => mkWord Opc.cons.num Engine.leh.num 0
  | .consLfg    => mkWord Opc.cons.num Engine.lfg.num 0
  | .consLfsr   => mkWord Opc.cons.num Engine.lfsr.num 0
  | .consMsq    => mkWord Opc.cons.num Engine.msq.num 0
  | .consWh     => mkWord Opc.cons.num Engine.wh.num 0
  | .advLcg     => mkWord Opc.adv.num Engine.lcg.num 0
  | .advLeh     => mkWord Opc.adv.num Engine.leh.num 0
  | .advLfg     => mkWord Opc.adv.num Engine.lfg.num 0
  | .advLfsr    => mkWord Opc.adv.num Engine.lfsr.num 0
  | .advMsq     => mkWord Opc.adv.num Engine.msq.num 0
  | .advWh      => mkWord Opc.adv.num Engine.wh.num 0
  | .hpush _    => mkWord Opc.hpush.num Engine.lfg.num 0
  | .hclr       => mkWord Opc.hclr.num Engine.lfg.num 0

/-- The data operand of a command: 0 for a command that ignores `cmd_data` (R65, R68). -/
def Instr.data : Instr → Word
  | .wrcfg _ v => v
  | .hpush v   => v
  | .rdcfg _ | .ldpreLcg _ | .ldpreLeh _ | .hclr => 0
  | .consLcg | .consLeh | .consLfg | .consLfsr | .consMsq | .consWh => 0
  | .advLcg | .advLeh | .advLfg | .advLfsr | .advMsq | .advWh => 0

/-- R63, column "uses `cmd_data`". -/
def Instr.usesData : Instr → Bool
  | .wrcfg _ _ | .hpush _ => true
  | .rdcfg _ | .ldpreLcg _ | .ldpreLeh _ | .hclr => false
  | .consLcg | .consLeh | .consLfg | .consLfsr | .consMsq | .consWh => false
  | .advLcg | .advLeh | .advLfg | .advLfsr | .advMsq | .advWh => false

/-- The encoder: what the assembler presents for a command (R68). -/
def encode (i : Instr) : Command := ⟨i.word, i.data⟩

/-- The 20 legal WRCFG words, as R63 lists them. -/
def legalWrcfg : List CmdWord :=
  [0x01000000, 0x01000100, 0x01000200, 0x01000300, 0x01000400, 0x01100000, 0x01100100, 0x01100300] ++
  [0x01200000, 0x01200100, 0x01200200, 0x01200300, 0x01300000, 0x01300100] ++
  [0x01400000, 0x01400100, 0x01400200, 0x01500000, 0x01500100, 0x01500200]

/-- The 21 legal RDCFG words, as R63 lists them. -/
def legalRdcfg : List CmdWord :=
  [0x02000000, 0x02000100, 0x02000200, 0x02000300, 0x02000400, 0x02100000, 0x02100100, 0x02100300] ++
  [0x02200000, 0x02200100, 0x02200200, 0x02200300, 0x02200400, 0x02300000, 0x02300100] ++
  [0x02400000, 0x02400100, 0x02400200, 0x02500000, 0x02500100, 0x02500200]

/-- The 12 legal LDPRE words, as R63 lists them. -/
def legalLdpre : List CmdWord :=
  [0x03000000, 0x03000100, 0x03000200, 0x03000300, 0x03000400, 0x03000500, 0x03000600, 0x03000700] ++
  [0x03100000, 0x03100100, 0x03100200, 0x03100300]

/-- The legal CONS, ADV, HPUSH and HCLR words, as R63 lists them. -/
def legalOther : List CmdWord :=
  [0x04000000, 0x04100000, 0x04200000, 0x04300000, 0x04400000, 0x04500000] ++
  [0x05000000, 0x05100000, 0x05200000, 0x05300000, 0x05400000, 0x05500000] ++ [0x06200000, 0x07200000]

/-- The complete list of the 67 legal command words (R63). -/
def legalWords : List CmdWord := legalWrcfg ++ legalRdcfg ++ legalLdpre ++ legalOther

/-! ## The host's numbering of an instruction's bits -/

/-- A command as one number: bits 31:0 are `cmd_word`, bits 95:32 are `cmd_data` (DESIGN CHOICE, log 8: the block fetches
nothing from memory, R44, R52, so the two ports are laid side by side). -/
def Command.ofBits (nbits w : Nat) : Command :=
  let v := w % 2 ^ nbits
  ⟨BitVec.ofNat 32 v, BitVec.ofNat 64 (v / 2 ^ 32)⟩

/-- The instruction the decoder reads from a word of the opcode table. -/
def decodeTableWord (nbits w : Nat) : Option Instr :=
  match decode (Command.ofBits nbits w) with
  | .ok i    => some i
  | .error _ => none

end Sys2Proof
end

