-- ==== Sys2Proof/Config.lean ====
section
/-! DEFINITION. The open parameters of the block: KMAX and WH_FLOAT (spec/92_eei_decisions.md, open parameters; D17, D24).
Both stand in State as plain data (field `params`), so that every statement over all states holds for every choice of them. -/

namespace Sys2Proof

/-- Which instantiation of the open parameter WH_FLOAT a block has (R190): the default the spec gives, or any other,
named by a number. -/
inductive WhFloat where
  /-- IEEE 754 binary64 evaluated in the order of R190: the spec's default. -/
  | binary64
  /-- Some other total function of the three registers; nothing is known of it (log 2). -/
  | other (n : Nat)
  deriving DecidableEq, Repr

/-- The hardware parameters of one block. No command and no reset changes them. -/
structure Params where
  /-- KMAX, the capacity of SEEDHIST and HIST in words (R40); the spec asks for `2 ≤ kmax`. -/
  kmax    : Nat
  /-- The encoding of the Wichmann-Hill floating output (R190). -/
  whFloat : WhFloat
  deriving DecidableEq, Repr

/-- UNVERIFIED (log 2): the value of an instantiation of WH_FLOAT that the spec does not state. A free value: it has no body. -/
opaque Config.whFloatOther : Nat → Reg15 → Reg15 → Reg15 → Word

/-- DESIGN CHOICE (logs 1, 2): the parameters `State.reset` shows. The spec leaves KMAX open; its vectors use 8 (R40, D17). The
spec's default WH_FLOAT is binary64 (R190). No statement rests on either. -/
def Config.defaultParams : Params := ⟨8, .binary64⟩

end Sys2Proof
end

