-- ==== Sys2Proof/Machine/State.lean ====
section
/-! DEFINITION. The architectural state (spec/10_state.md), the response port, the host's events, and the state after reset
(rule R30). -/

namespace Sys2Proof.Machine

/-- The statuses of R202, by name; their codes are `Status.code` (Machine/Flags.lean). -/
inductive Status where
  | ok | illegalCmd | notConstructed
  | mulRange | incRange | seedRange | obrInvalid | lagWindow | histLen | lfsrZeroSeed | whSeedRange
  | modZero | kRange | msqDigits | fieldRange
  deriving DecidableEq, Repr

/-- One response: `rsp_status`, `rsp_data`, `rsp_aux` (R64). -/
structure Response where
  status : Status
  data   : Word
  aux    : Word
  deriving DecidableEq, Repr

/-- The LCG's configuration registers (R15). -/
structure LcgCfg where
  mod  : Word
  mul  : Word
  inc  : Word
  seed : Word
  obr  : Word
  deriving DecidableEq, Repr

/-- The LCG engine: CFG.LCG, ST.LCG.X, VALID.LCG (R10, R15, R16). -/
structure Lcg where
  cfg   : LcgCfg
  x     : Word
  valid : Bool
  deriving DecidableEq, Repr

/-- The Lehmer generator's configuration registers (R17). -/
structure LehCfg where
  mod  : Word
  mul  : Word
  seed : Word
  deriving DecidableEq, Repr

/-- The LEH engine: CFG.LEH, ST.LEH.X, VALID.LEH (R10, R17, R18). -/
structure Leh where
  cfg   : LehCfg
  x     : Word
  valid : Bool
  deriving DecidableEq, Repr

/-- The Lagged Fibonacci engine's configuration registers (R19). -/
structure LfgCfg where
  mod : Word
  j   : Word
  k   : Word
  op  : Word
  deriving DecidableEq, Repr

/-- A memory of 64-bit words in canonical form: indexes strictly rising, no entry equal to what an unlisted index reads as
(`WordMem.unlisted`, Machine/Ops.lean). -/
abbrev WordMem := List (Nat × Word)

/-- The LFG engine: CFG.LFG, HLEN, SEEDHIST, HIST as the logical history H (oldest first), VALID.LFG (R10, R19, R20, R43). -/
structure Lfg where
  cfg      : LfgCfg
  hlen     : Nat
  seedHist : WordMem
  hist     : List Word
  valid    : Bool
  deriving DecidableEq, Repr

/-- The LFSR's configuration registers (R22). -/
structure LfsrCfg where
  seed : Word
  mask : Word
  deriving DecidableEq, Repr

/-- The LFSR engine: CFG.LFSR, ST.LFSR.R, VALID.LFSR (R10, R22, R24). -/
structure Lfsr where
  cfg   : LfsrCfg
  r     : Reg32
  valid : Bool
  deriving DecidableEq, Repr

/-- The Middle-Square engine's configuration registers (R25). -/
structure MsqCfg where
  seed   : Word
  digits : Word
  width  : Word
  deriving DecidableEq, Repr

/-- The MSQ engine: CFG.MSQ, ST.MSQ.X, VALID.MSQ (R10, R25, R26). -/
structure Msq where
  cfg   : MsqCfg
  x     : Word
  valid : Bool
  deriving DecidableEq, Repr

/-- The Wichmann-Hill engine's configuration registers (R27). -/
structure WhCfg where
  seed0 : Word
  seed1 : Word
  seed2 : Word
  deriving DecidableEq, Repr

/-- The WH engine: CFG.WH, ST.WH.S0, S1, S2, VALID.WH (R10, R27, R28). -/
structure Wh where
  cfg   : WhCfg
  s0    : Reg15
  s1    : Reg15
  s2    : Reg15
  valid : Bool
  deriving DecidableEq, Repr

/-- What the host does at the port, one event per step: it presents a command, or asserts reset (R4, R230; log 6). -/
inductive HostEvent where
  | command (c : Command)
  | reset
  deriving DecidableEq, Repr

/-- The state of the block (10_state.md section 8), its response port (R60: `none` is `rsp_valid = 0`), the events the host has
still to present (the model's own field, log 6), and the block's parameters (the model's own field, logs 1 and 2). -/
structure State where
  lcg    : Lcg
  leh    : Leh
  lfg    : Lfg
  lfsr   : Lfsr
  msq    : Msq
  wh     : Wh
  rsp    : Option Response
  host   : List HostEvent
  params : Params
  deriving DecidableEq, Repr

/-- Why the machine stops with a fault: never. "Every failure is a response status and leaves the state unchanged"
(00_scope.md section 8, R200, R207), so the type has no constructor and every claim that a step faults is false. -/
inductive Fault where
  deriving DecidableEq, Repr

/-- Why a command has no meaning. -/
inductive Refusal where
  /-- Raised by an arm of `exec` that has no meaning yet (safe). No arm raises it: all 18 commands have their meaning. -/
  | notModelled (mnemonic : String)
  deriving DecidableEq, Repr

/-- The state a reset leaves in a block with parameters `p`, no event pending: VALID, configuration and HLEN 0, no response
(R30). State registers, SEEDHIST and HIST are unspecified there: 0, no word listed and the empty list are DESIGN CHOICE
(logs 3, 4, 5). -/
def State.resetOf (p : Params) : State where
  lcg    := { cfg := ⟨0, 0, 0, 0, 0⟩, x := 0, valid := false }
  leh    := { cfg := ⟨0, 0, 0⟩, x := 0, valid := false }
  lfg    := { cfg := ⟨0, 0, 0, 0⟩, hlen := 0, seedHist := [], hist := [], valid := false }
  lfsr   := { cfg := ⟨0, 0⟩, r := 0, valid := false }
  msq    := { cfg := ⟨0, 0, 0⟩, x := 0, valid := false }
  wh     := { cfg := ⟨0, 0, 0⟩, s0 := 0, s1 := 0, s2 := 0, valid := false }
  rsp    := none
  host   := []
  params := p

/-- The machine right after reset (R30). -/
def State.reset : State := State.resetOf Config.defaultParams

end Sys2Proof.Machine
end

