-- ==== Sys2Proof/Machine/Flags.lean ====
section
/-! DEFINITION. The flags: the six VALID bits (spec/10_state.md rules R12, R31), the saturation of HLEN (R31, R140), and the
status codes (spec/60_exceptions.md rule R202). -/

namespace Sys2Proof.Machine

/-- The 8-bit `rsp_status` of a status (R202). -/
def Status.code : Status → BitVec 8
  | .ok             => 0x00
  | .illegalCmd     => 0x01
  | .notConstructed => 0x02
  | .mulRange       => 0x10
  | .incRange       => 0x11
  | .seedRange      => 0x12
  | .obrInvalid     => 0x13
  | .lagWindow      => 0x14
  | .histLen        => 0x15
  | .lfsrZeroSeed   => 0x16
  | .whSeedRange    => 0x17
  | .modZero        => 0x18
  | .kRange         => 0x19
  | .msqDigits      => 0x1A
  | .fieldRange     => 0x1B

/-- R202: "A status with `rsp_status[7:4] = 1` is a ConfigurationError". -/
def Status.isConfigurationError (st : Status) : Bool := st.code.extractLsb' 4 4 = 1

/-- VALID.e (R12). -/
def State.valid (s : State) : Engine → Bool
  | .lcg  => s.lcg.valid
  | .leh  => s.leh.valid
  | .lfg  => s.lfg.valid
  | .lfsr => s.lfsr.valid
  | .msq  => s.msq.valid
  | .wh   => s.wh.valid

/-- `VALID.e <- 0`: what every command that writes configuration of `e` does (R12). -/
def State.clearValid (s : State) : Engine → State
  | .lcg  => { s with lcg := { s.lcg with valid := false } }
  | .leh  => { s with leh := { s.leh with valid := false } }
  | .lfg  => { s with lfg := { s.lfg with valid := false } }
  | .lfsr => { s with lfsr := { s.lfsr with valid := false } }
  | .msq  => { s with msq := { s.msq with valid := false } }
  | .wh   => { s with wh := { s.wh with valid := false } }

/-- HLEN after one more push, with room for `kmax` words: it saturates at `kmax + 1` (R140). -/
def hlenAfterPush (kmax hlen : Nat) : Nat := if hlen < kmax then hlen + 1 else kmax + 1

end Sys2Proof.Machine
end

