-- ==== Sys2Proof/Machine/Operands.lean ====
section
/-! DEFINITION. Operand forms: reading and writing the cells of the configuration space (spec/20_memory.md rule R41), and the
packed and coded fields of configuration registers (OBR, R15; WIDTH, R25; OP, R19). -/

namespace Sys2Proof.Machine

/-- The value RDCFG reads from a cell: the register, or HLEN zero-extended (R82; log 10). -/
def State.readCfg (s : State) : CfgReg → Word
  | .lcg .mod    => s.lcg.cfg.mod
  | .lcg .mul    => s.lcg.cfg.mul
  | .lcg .inc    => s.lcg.cfg.inc
  | .lcg .seed   => s.lcg.cfg.seed
  | .lcg .obr    => s.lcg.cfg.obr
  | .leh .mod    => s.leh.cfg.mod
  | .leh .mul    => s.leh.cfg.mul
  | .leh .seed   => s.leh.cfg.seed
  | .lfg .mod    => s.lfg.cfg.mod
  | .lfg .j      => s.lfg.cfg.j
  | .lfg .k      => s.lfg.cfg.k
  | .lfg .op     => s.lfg.cfg.op
  | .lfg .hlen   => BitVec.ofNat 64 s.lfg.hlen
  | .lfsr .seed  => s.lfsr.cfg.seed
  | .lfsr .mask  => s.lfsr.cfg.mask
  | .msq .seed   => s.msq.cfg.seed
  | .msq .digits => s.msq.cfg.digits
  | .msq .width  => s.msq.cfg.width
  | .wh .seed0   => s.wh.cfg.seed0
  | .wh .seed1   => s.wh.cfg.seed1
  | .wh .seed2   => s.wh.cfg.seed2

/-- `CFG.e.<reg> <- v`, all 64 bits, verbatim (R11, R80). HLEN is no configuration register and is not written this way. -/
def State.writeCfg (s : State) (v : Word) : CfgReg → State
  | .lcg .mod    => { s with lcg := { s.lcg with cfg := { s.lcg.cfg with mod := v } } }
  | .lcg .mul    => { s with lcg := { s.lcg with cfg := { s.lcg.cfg with mul := v } } }
  | .lcg .inc    => { s with lcg := { s.lcg with cfg := { s.lcg.cfg with inc := v } } }
  | .lcg .seed   => { s with lcg := { s.lcg with cfg := { s.lcg.cfg with seed := v } } }
  | .lcg .obr    => { s with lcg := { s.lcg with cfg := { s.lcg.cfg with obr := v } } }
  | .leh .mod    => { s with leh := { s.leh with cfg := { s.leh.cfg with mod := v } } }
  | .leh .mul    => { s with leh := { s.leh with cfg := { s.leh.cfg with mul := v } } }
  | .leh .seed   => { s with leh := { s.leh with cfg := { s.leh.cfg with seed := v } } }
  | .lfg .mod    => { s with lfg := { s.lfg with cfg := { s.lfg.cfg with mod := v } } }
  | .lfg .j      => { s with lfg := { s.lfg with cfg := { s.lfg.cfg with j := v } } }
  | .lfg .k      => { s with lfg := { s.lfg with cfg := { s.lfg.cfg with k := v } } }
  | .lfg .op     => { s with lfg := { s.lfg with cfg := { s.lfg.cfg with op := v } } }
  | .lfg .hlen   => s
  | .lfsr .seed  => { s with lfsr := { s.lfsr with cfg := { s.lfsr.cfg with seed := v } } }
  | .lfsr .mask  => { s with lfsr := { s.lfsr with cfg := { s.lfsr.cfg with mask := v } } }
  | .msq .seed   => { s with msq := { s.msq with cfg := { s.msq.cfg with seed := v } } }
  | .msq .digits => { s with msq := { s.msq with cfg := { s.msq.cfg with digits := v } } }
  | .msq .width  => { s with msq := { s.msq with cfg := { s.msq.cfg with width := v } } }
  | .wh .seed0   => { s with wh := { s.wh with cfg := { s.wh.cfg with seed0 := v } } }
  | .wh .seed1   => { s with wh := { s.wh with cfg := { s.wh.cfg with seed1 := v } } }
  | .wh .seed2   => { s with wh := { s.wh with cfg := { s.wh.cfg with seed2 := v } } }

/-! ## The output-bit range register OBR (R15) -/

/-- OBR bit 0. -/
def obrPresent (obr : Word) : Bool := obr.getLsbD 0
/-- OBR bits 15:8. -/
def obrStart (obr : Word) : Nat := (obr.extractLsb' 8 8).toNat
/-- OBR bits 23:16, the exclusive upper bit bound. -/
def obrEnd (obr : Word) : Nat := (obr.extractLsb' 16 8).toNat
/-- OBR bits 7:1 and 63:24 are all 0. -/
def obrReservedZero (obr : Word) : Bool := obr.extractLsb' 1 7 = 0 ∧ obr.extractLsb' 24 40 = 0

/-! ## The Middle-Square width select (R25, R170) -/

/-- W: 32 for WIDTH = 0, 64 for WIDTH = 1. CONS.MSQ rejects every other value before W is used (R170 check 1). -/
def msqBits (width : Word) : Nat := if width = 0 then 32 else 64

/-- DMAX(W): DMAX(32) = 9, DMAX(64) = 19 (R170). -/
def msqDmax (width : Word) : Nat := if width = 0 then 9 else 19

/-! ## The Lagged Fibonacci operators (R19, R146) -/

/-- The four operators, in the order of their numbers. -/
inductive LfgOp where
  | add | sub | mul | xor
  deriving DecidableEq, Repr

/-- CFG.LFG.OP as an operator: 0 Add, 1 Subtract, 2 Multiply, 3 Xor. CONS.LFG rejects every other value (R143 check 5), so the
last line stands for 3 alone in every state a run reaches (log 11). -/
def LfgOp.ofWord (w : Word) : LfgOp :=
  match w.toNat with
  | 0 => .add
  | 1 => .sub
  | 2 => .mul
  | _ => .xor

/-- OPR(op, u, v), an exact integer (R146). -/
def LfgOp.apply (op : LfgOp) (u v : Word) : Int :=
  match op with
  | .add => (u.toNat : Int) + v.toNat
  | .sub => (u.toNat : Int) - v.toNat
  | .mul => (u.toNat : Int) * v.toNat
  | .xor => ((u ^^^ v).toNat : Int)

end Sys2Proof.Machine
end

