-- ==== Sys2Proof/Machine/Ops.lean ====
section
/-! DEFINITION. The shared operations: the word memory, answering a command, failing a command (what stands in this block for
taking an exception, spec/60_exceptions.md rules R200, R203, R207; there is no return, R208), and the common frames of CONS and
ADV (spec/40_shared_commands.md rules R84, R86). -/

namespace Sys2Proof.Machine

/-! ## The word memory SEEDHIST (R40, R42) -/

/-- DESIGN CHOICE (log 4): what a word that nothing has written reads as. The spec leaves it unspecified (R30, R42). -/
def WordMem.unlisted : Word := 0

/-- The word at an index. -/
def WordMem.read (m : WordMem) (i : Nat) : Word :=
  match m with
  | []            => WordMem.unlisted
  | (n, w) :: m' => if n = i then w else WordMem.read m' i

/-- An entry for `i` in front of `m`, unless an unlisted index reads as `v` anyway. -/
def WordMem.consEntry (i : Nat) (v : Word) (m : WordMem) : WordMem :=
  if v = WordMem.unlisted then m else (i, v) :: m

/-- Write the word at an index, keeping the canonical form. -/
def WordMem.write (m : WordMem) (i : Nat) (v : Word) : WordMem :=
  match m with
  | []            => WordMem.consEntry i v []
  | (n, w) :: m' =>
    if i < n then WordMem.consEntry i v ((n, w) :: m')
    else if i = n then WordMem.consEntry i v m'
    else (n, w) :: WordMem.write m' i v

/-- The canonical form: indexes strictly rising, no entry equal to what an unlisted index reads as. -/
def WordMem.wf (m : WordMem) : Bool :=
  decide (m.Pairwise (fun a b => a.1 < b.1)) && m.all (fun a => a.2 != WordMem.unlisted)

/-- The first `k` words of a memory, in order. -/
def WordMem.take (m : WordMem) (k : Nat) : List Word := (List.range k).map (WordMem.read m)

/-! ## Answering -/

/-- Present a response (R60, R64). -/
def State.respond (s : State) (r : Response) : State := { s with rsp := some r }

/-- Complete with OK: `respond(OK, data, aux)` (R64). -/
def State.ok (s : State) (data aux : Word) : State := s.respond ⟨.ok, data, aux⟩

/-- `fail(cause)`: answer `(cause, 0, 0)` and write nothing else (R200, R203). -/
def State.fail (s : State) (cause : Status) : State := s.respond ⟨cause, 0, 0⟩

/-- The outcome of every command: a next state (R4). -/
abbrev Result := Host.Outcome State Fault Refusal

/-- Complete a command that has no failure. -/
def complete (s : State) (data : Word) : Result := .next (s.ok data 0)

/-- The answer to an illegal command word (R66). -/
def illegal (s : State) : Result := .next (s.fail .illegalCmd)

/-! ## CONS and ADV -/

/-- One check of a CONS: the condition that must hold, and the cause when it does not (R84). -/
abbrev Check := Bool × Status

/-- The cause of the first check that does not hold, in the listed order (R84, R205). -/
def firstFailing : List Check → Option Status
  | []             => none
  | (ok, c) :: cs => if ok then firstFailing cs else some c

/-- The common frame of CONS (R84): `built` is the state with ST.e set and VALID.e = 1. -/
def construct (checks : List Check) (built s : State) : Result :=
  match firstFailing checks with
  | some cause => .next (s.fail cause)
  | none       => .next (built.ok 0 0)

/-- The common frame of ADV (R86): `moved` is the state with ST.e advanced. -/
def advance (valid : Bool) (moved : State) (out aux : Word) (s : State) : Result :=
  if valid then .next (moved.ok out aux) else .next (s.fail .notConstructed)

end Sys2Proof.Machine
end

