-- ==== Sys2Proof/Machine/Configure.lean ====
section
/-! DEFINITION. The configuration commands WRCFG and RDCFG (spec/40_shared_commands.md rules R80, R82), the preset ROM and
LDPRE (spec/41_preset_rom.md rules R100 to R103). -/

namespace Sys2Proof.Machine

/-- WRCFG (R80): store all 64 bits verbatim and clear VALID.e, always. The read-only HLEN is answered ILLEGAL_CMD and clears
nothing (R41; the decoder never yields it, log 9). -/
def execWrcfg (r : CfgReg) (v : Word) (s : State) : Result :=
  if r.writable then complete ((s.writeCfg v r).clearValid r.engine) 0 else illegal s

/-- RDCFG (R82): answer the cell's value; no state changes. -/
def execRdcfg (r : CfgReg) (s : State) : Result :=
  complete s (s.readCfg r)

/-- One row of the preset ROM (R100). -/
structure RomRow where
  modulus    : Word
  multiplier : Word
  increment  : Word
  obr        : Word
  deriving DecidableEq, Repr

/-- The preset ROM (R100): constant. -/
def rom : Preset → RomRow
  | .minstd     => ⟨0x7FFFFFFF, 16807, 0, 0⟩
  | .minstdRand => ⟨0x7FFFFFFF, 48271, 0, 0⟩
  | .randu      => ⟨0x80000000, 65539, 0, 0⟩
  | .zx81       => ⟨65537, 75, 74, 0⟩
  | .borland    => ⟨0x80000000, 22695477, 1, 0x1E1001⟩
  | .glibc      => ⟨0x80000000, 1103515245, 12345, 0x1E0001⟩
  | .posix      => ⟨0x1000000000000, 25214903917, 11, 0x2F1001⟩
  | .ranqd1     => ⟨0x100000000, 1664525, 1013904223, 0⟩

/-- CFG.LCG after a preset is loaded: SEED is not touched (R102). -/
def LcgCfg.load (c : LcgCfg) (p : Preset) : LcgCfg :=
  { c with mod := (rom p).modulus, mul := (rom p).multiplier, inc := (rom p).increment, obr := (rom p).obr }

/-- CFG.LEH after a preset is loaded: SEED is not touched, the increment and OBR columns are not used (R103). -/
def LehCfg.load (c : LehCfg) (p : Preset) : LehCfg :=
  { c with mod := (rom p).modulus, mul := (rom p).multiplier }

/-- LDPRE.LCG (R102). -/
def execLdpreLcg (p : Preset) (s : State) : Result :=
  complete { s with lcg := { s.lcg with cfg := s.lcg.cfg.load p, valid := false } } 0

/-- LDPRE.LEH (R103). A preset above 3 is an illegal command (R101; the decoder never yields it, log 9). -/
def execLdpreLeh (p : Preset) (s : State) : Result :=
  if p.forLehmer then complete { s with leh := { s.leh with cfg := s.leh.cfg.load p, valid := false } } 0 else illegal s

end Sys2Proof.Machine
end

