-- ==== Sys2Proof/Machine/Congruential.lean ====
section
/-! DEFINITION. The LCG engine (spec/42_lcg.md rules R115 to R118) and the LEH engine (spec/43_lehmer.md rules R130 to R132). -/

namespace Sys2Proof.Machine

/-! ## LCG -/

/-- The checks of CONS.LCG, in order (R115). -/
def lcgChecks (c : LcgCfg) : List Check :=
  [ (decide (c.mul.toNat < c.mod.toNat), .mulRange),
    (decide (c.inc.toNat < c.mod.toNat), .incRange),
    (decide (c.seed.toNat < c.mod.toNat), .seedRange),
    (obrReservedZero c.obr, .obrInvalid),
    (!obrPresent c.obr || decide (obrStart c.obr < obrEnd c.obr), .obrInvalid),
    (!obrPresent c.obr || decide (obrStart c.obr ≤ 63), .obrInvalid),
    (!obrPresent c.obr || decide (obrEnd c.obr ≤ 64), .obrInvalid) ]

/-- CONS.LCG (R84, R115, R116). -/
def execConsLcg (s : State) : Result :=
  construct (lcgChecks s.lcg.cfg) { s with lcg := { s.lcg with x := s.lcg.cfg.seed, valid := true } } s

/-- x' = (a * x + c) mod m, the multiply-add exact (R117). -/
def lcgNext (c : LcgCfg) (x : Word) : Word :=
  BitVec.ofNat 64 ((c.mul.toNat * x.toNat + c.inc.toNat) % c.mod.toNat)

/-- The output for a new state x': the whole of it, or (x' mod 2^end) >> start (R118; END is exclusive, 90_conflicts.md C1). -/
def lcgOut (obr x' : Word) : Word :=
  if obrPresent obr then BitVec.ofNat 64 ((x'.toNat % 2 ^ obrEnd obr) / 2 ^ obrStart obr) else x'

/-- ADV.LCG (R86, R117, R118). -/
def execAdvLcg (s : State) : Result :=
  let x' := lcgNext s.lcg.cfg s.lcg.x
  advance s.lcg.valid { s with lcg := { s.lcg with x := x' } } (lcgOut s.lcg.cfg.obr x') 0 s

/-! ## LEH -/

/-- The checks of CONS.LEH, in order (R130). -/
def lehChecks (c : LehCfg) : List Check :=
  [ (decide (c.mul.toNat < c.mod.toNat), .mulRange),
    (decide (c.seed.toNat < c.mod.toNat), .seedRange) ]

/-- CONS.LEH (R84, R130, R131). -/
def execConsLeh (s : State) : Result :=
  construct (lehChecks s.leh.cfg) { s with leh := { s.leh with x := s.leh.cfg.seed, valid := true } } s

/-- x' = (a * x) mod m, the product exact (R132). -/
def lehNext (c : LehCfg) (x : Word) : Word :=
  BitVec.ofNat 64 ((c.mul.toNat * x.toNat) % c.mod.toNat)

/-- ADV.LEH (R86, R132). -/
def execAdvLeh (s : State) : Result :=
  let x' := lehNext s.leh.cfg s.leh.x
  advance s.leh.valid { s with leh := { s.leh with x := x' } } x' 0 s

end Sys2Proof.Machine
end

