-- ==== Sys2Proof/Machine/Lagged.lean ====
section
/-! DEFINITION. The LFG engine: loading the seed history, construction and advance
(spec/44_lagged_fibonacci.md rules R140, R141, R143 to R146). -/

namespace Sys2Proof.Machine

/-- The engine after one push: the word is stored at index HLEN while there is room, and discarded after that (R140). -/
def Lfg.push (e : Lfg) (kmax : Nat) (v : Word) : Lfg :=
  { e with
    seedHist := if e.hlen < kmax then e.seedHist.write e.hlen v else e.seedHist
    hlen     := hlenAfterPush kmax e.hlen
    valid    := false }

/-- HPUSH (R140): answer the new HLEN. -/
def execHpush (v : Word) (s : State) : Result :=
  let e := s.lfg.push s.params.kmax v
  complete { s with lfg := e } (BitVec.ofNat 64 e.hlen)

/-- HCLR (R141): the words of SEEDHIST are not erased. -/
def execHclr (s : State) : Result :=
  complete { s with lfg := { s.lfg with hlen := 0, valid := false } } 0

/-- The checks of CONS.LFG, in order (R143). -/
def lfgChecks (kmax : Nat) (e : Lfg) : List Check :=
  [ (decide (1 ≤ e.cfg.j.toNat ∧ e.cfg.j.toNat < e.cfg.k.toNat), .lagWindow),
    (decide (e.hlen = e.cfg.k.toNat), .histLen),
    (decide (e.cfg.k.toNat ≤ kmax), .kRange),
    (decide (1 ≤ e.cfg.mod.toNat), .modZero),
    (decide (e.cfg.op.toNat ≤ 3), .fieldRange) ]

/-- CONS.LFG (R84, R143, R144): H becomes the first k words of SEEDHIST, which stays. -/
def execConsLfg (s : State) : Result :=
  construct (lfgChecks s.params.kmax s.lfg)
    { s with lfg := { s.lfg with hist := s.lfg.seedHist.take s.lfg.cfg.k.toNat, valid := true } } s

/-- The 1-based position `p` of the logical history. Positions outside it are read in no state a run reaches (R143; log 11). -/
def tap (h : List Word) (p : Nat) : Word := h.getD (p - 1) 0

/-- next = OPR(op, H[j-1], H[k-1]) mod m, the least non-negative residue (R145, R146). -/
def lfgNext (c : LfgCfg) (h : List Word) : Word :=
  let w := (LfgOp.ofWord c.op).apply (tap h c.j.toNat) (tap h c.k.toNat)
  BitVec.ofNat 64 (w % (c.mod.toNat : Int)).toNat

/-- Evict the oldest value and append the new one (R43, R145). -/
def histAppend (h : List Word) (next : Word) : List Word := h.tail ++ [next]

/-- ADV.LFG (R86, R145). -/
def execAdvLfg (s : State) : Result :=
  let next := lfgNext s.lfg.cfg s.lfg.hist
  advance s.lfg.valid { s with lfg := { s.lfg with hist := histAppend s.lfg.hist next } } next 0 s

end Sys2Proof.Machine
end

