-- ==== Sys2Proof/Machine/MiddleSquare.lean ====
section
/-! DEFINITION. The MSQ engine (spec/46_middle_square.md rules R170 to R173). -/

namespace Sys2Proof.Machine

/-- The checks of CONS.MSQ, in order (R170). -/
def msqChecks (c : MsqCfg) : List Check :=
  [ (decide (c.width.toNat ≤ 1), .fieldRange),
    (decide (c.digits.toNat ≤ msqDmax c.width), .msqDigits),
    (decide (c.seed.toNat < 2 ^ msqBits c.width), .fieldRange) ]

/-- CONS.MSQ (R84, R170, R171). -/
def execConsMsq (s : State) : Result :=
  construct (msqChecks s.msq.cfg) { s with msq := { s.msq with x := s.msq.cfg.seed, valid := true } } s

/-- The number of decimal digits of `x`, counting with `fuel` at least the number of digits less one. -/
def ndigitsFrom : Nat → Nat → Nat
  | 0, _        => 1
  | fuel + 1, x => if x < 10 then 1 else ndigitsFrom fuel (x / 10) + 1

/-- ndigits(x) (spec/00_scope.md section 6): 1 for 0. `x` itself is fuel enough. -/
def ndigits (x : Nat) : Nat := ndigitsFrom x x

/-- MID(sq, n), the middle n decimal digits of sq rendered with at least 2n digits; 0 for n = 0 (R173). -/
def mid (sq n : Nat) : Nat :=
  if n = 0 then 0
  else
    let wd   := max (ndigits sq) (2 * n)
    let lead := (wd - n) / 2
    let r    := wd - n - lead
    sq / 10 ^ r % 10 ^ n

/-- The new seed: the middle digits of the exact square (R172). -/
def msqNext (c : MsqCfg) (x : Word) : Word :=
  BitVec.ofNat 64 (mid (x.toNat * x.toNat) c.digits.toNat)

/-- ADV.MSQ (R86, R172). -/
def execAdvMsq (s : State) : Result :=
  let y := msqNext s.msq.cfg s.msq.x
  advance s.msq.valid { s with msq := { s.msq with x := y } } y 0 s

end Sys2Proof.Machine
end

