-- ==== Sys2Proof/Machine/Shift.lean ====
section
/-! DEFINITION. The LFSR engine (spec/45_lfsr.md rules R160 to R162). -/

namespace Sys2Proof.Machine

/-- The checks of CONS.LFSR, in order, on the whole 64-bit registers (R160). -/
def lfsrChecks (c : LfsrCfg) : List Check :=
  [ (decide (c.seed.toNat ≠ 0), .lfsrZeroSeed),
    (decide (c.seed.toNat < 2 ^ 32), .fieldRange),
    (decide (c.mask.toNat < 2 ^ 32), .fieldRange) ]

/-- CONS.LFSR (R84, R160, R161). -/
def execConsLfsr (s : State) : Result :=
  construct (lfsrChecks s.lfsr.cfg)
    { s with lfsr := { s.lfsr with r := s.lfsr.cfg.seed.extractLsb' 0 32, valid := true } } s

/-- Shift right by one, and xor the mask's low 32 bits if the bit shifted out was 1 (R162). -/
def lfsrNext (c : LfsrCfg) (r : Reg32) : Reg32 :=
  if r.getLsbD 0 then (r >>> 1) ^^^ c.mask.extractLsb' 0 32 else r >>> 1

/-- ADV.LFSR (R86, R162). -/
def execAdvLfsr (s : State) : Result :=
  let r' := lfsrNext s.lfsr.cfg s.lfsr.r
  advance s.lfsr.valid { s with lfsr := { s.lfsr with r := r' } } (r'.setWidth 64) 0 s

end Sys2Proof.Machine
end

