-- ==== Sys2Proof/Machine/Float.lean ====
section
/-! DEFINITION. WH_FLOAT, the floating output of the Wichmann-Hill engine (spec/47_wichmann_hill.md rule R190): the default
instantiation, IEEE 754 binary64 with round to nearest even, written on exact integers (log 12), and the open ones. -/

namespace Sys2Proof.Machine

/-- The exact non-negative number `num / 2^sh`. -/
structure Scaled where
  num : Nat
  sh  : Nat
  deriving DecidableEq, Repr

/-- The binary64 number nearest to `n / d`, ties to even, for `n = 0` or `2^-64 ≤ n / d < 2^52`: a significand of 53 bits.
`log2 (n * 2^64 / d)` is the exponent of `n / d` plus 64. -/
def roundQuotient (n d : Nat) : Scaled :=
  if n = 0 then ⟨0, 0⟩
  else
    let s := 116 - Nat.log2 (n * 2 ^ 64 / d)
    let q := n * 2 ^ s / d
    let r := n * 2 ^ s % d
    ⟨if d < 2 * r ∨ (2 * r = d ∧ q % 2 = 1) then q + 1 else q, s⟩

/-- fdiv: an integer converted exactly, divided by an integer, rounded once. -/
def fdiv (n d : Nat) : Scaled := roundQuotient n d

/-- fadd: the exact sum, rounded once. -/
def fadd (a b : Scaled) : Scaled := roundQuotient (a.num * 2 ^ b.sh + b.num * 2 ^ a.sh) (2 ^ (a.sh + b.sh))

/-- fmod by 1.0: exact. -/
def fmod1 (a : Scaled) : Scaled := ⟨a.num % 2 ^ a.sh, a.sh⟩

/-- The binary64 interchange pattern of a number below 2^54 units: exponent 62:52, fraction 51:0, sign 0. -/
def binary64Bits (a : Scaled) : Word :=
  if a.num = 0 then 0
  else
    let l := Nat.log2 a.num
    BitVec.ofNat 64 ((1023 + l - a.sh) * 2 ^ 52 + (a.num * 2 ^ 52 / 2 ^ l - 2 ^ 52))

/-- The default WH_FLOAT: three divisions, two additions left to right, exact fmod (R190). -/
def whFloatBinary64 (s0 s1 s2 : Reg15) : Word :=
  let d0 := fdiv s0.toNat 30269
  let d1 := fdiv s1.toNat 30307
  let d2 := fdiv s2.toNat 30323
  binary64Bits (fmod1 (fadd (fadd d0 d1) d2))

/-- WH_FLOAT(s0, s1, s2) of a block (R190). -/
def whFloat (inst : WhFloat) (s0 s1 s2 : Reg15) : Word :=
  match inst with
  | .binary64 => whFloatBinary64 s0 s1 s2
  | .other n  => Config.whFloatOther n s0 s1 s2

end Sys2Proof.Machine
end

