-- ==== Sys2Proof/Machine/WichmannHill.lean ====
section
/-! DEFINITION. The WH engine (spec/47_wichmann_hill.md rules R185 to R190). -/

namespace Sys2Proof.Machine

/-- A legal seed: 1 to 30000, compared on the whole 64-bit register (R185). -/
def whSeedOk (v : Word) : Bool := decide (1 ≤ v.toNat ∧ v.toNat ≤ 30000)

/-- The checks of CONS.WH, in order (R185). -/
def whChecks (c : WhCfg) : List Check :=
  [ (whSeedOk c.seed0, .whSeedRange),
    (whSeedOk c.seed1, .whSeedRange),
    (whSeedOk c.seed2, .whSeedRange) ]

/-- CONS.WH (R84, R185, R186). -/
def execConsWh (s : State) : Result :=
  construct (whChecks s.wh.cfg)
    { s with wh := { s.wh with
        s0 := s.wh.cfg.seed0.extractLsb' 0 15, s1 := s.wh.cfg.seed1.extractLsb' 0 15, s2 := s.wh.cfg.seed2.extractLsb' 0 15,
        valid := true } } s

/-- `a * s mod m` in a 15-bit register, the product exact (R188). -/
def whNext (a m : Nat) (s : Reg15) : Reg15 := BitVec.ofNat 15 (a * s.toNat % m)

/-- NUM(s0, s1, s2), the exact numerator over 30269 * 30307 * 30323 (R189). -/
def whNum (s0 s1 s2 : Reg15) : Nat :=
  (s0.toNat * 918999161 + s1.toNat * 917846887 + s2.toNat * 917362583) % 27817185604309

/-- The engine after one transition (R188). -/
def Wh.next (e : Wh) : Wh :=
  { e with s0 := whNext 171 30269 e.s0, s1 := whNext 172 30307 e.s1, s2 := whNext 170 30323 e.s2 }

/-- ADV.WH (R86, R187): both outputs are of the state before the transition. -/
def execAdvWh (s : State) : Result :=
  advance s.wh.valid { s with wh := s.wh.next }
    (whFloat s.params.whFloat s.wh.s0 s.wh.s1 s.wh.s2)
    (BitVec.ofNat 64 (whNum s.wh.s0 s.wh.s1 s.wh.s2)) s

end Sys2Proof.Machine
end

