-- ==== Sys2Proof/Machine/Dispatch.lean ====
section
/-! DEFINITION. One arm per command. -/

namespace Sys2Proof.Machine

def exec (i : Instr) (s : State) : Host.Outcome State Fault Refusal :=
  match i with
  | .wrcfg r v => Sys2Proof.Machine.execWrcfg r v s
  | .rdcfg r => Sys2Proof.Machine.execRdcfg r s
  | .ldpreLcg p => Sys2Proof.Machine.execLdpreLcg p s
  | .ldpreLeh p => Sys2Proof.Machine.execLdpreLeh p s
  | .consLcg => Sys2Proof.Machine.execConsLcg s
  | .consLeh => Sys2Proof.Machine.execConsLeh s
  | .consLfg => Sys2Proof.Machine.execConsLfg s
  | .consLfsr => Sys2Proof.Machine.execConsLfsr s
  | .consMsq => Sys2Proof.Machine.execConsMsq s
  | .consWh => Sys2Proof.Machine.execConsWh s
  | .advLcg => Sys2Proof.Machine.execAdvLcg s
  | .advLeh => Sys2Proof.Machine.execAdvLeh s
  | .advLfg => Sys2Proof.Machine.execAdvLfg s
  | .advLfsr => Sys2Proof.Machine.execAdvLfsr s
  | .advMsq => Sys2Proof.Machine.execAdvMsq s
  | .advWh => Sys2Proof.Machine.execAdvWh s
  | .hpush v => Sys2Proof.Machine.execHpush v s
  | .hclr => Sys2Proof.Machine.execHclr s

end Sys2Proof.Machine
end

