-- ==== Sys2Proof/Machine/Accept.lean ====
section
/-! DEFINITION. What the block does with one event of the host (spec/00_scope.md rules R2, R4; spec/70_reset_and_hazards.md
rule R230), as small functions that `step` (Machine/Step.lean) calls. -/

namespace Sys2Proof.Machine

/-- Accept one command: decode it; run it, or answer ILLEGAL_CMD (R66, R205 test 1). -/
def accept (c : Command) (s : State) : Result :=
  match decode c with
  | .ok i    => exec i s
  | .error _ => illegal s

/-- The reset event (R230): every state takes its reset value; the parameters are the block's, and the host's later events
are still to come (log 6). -/
def resetEvent (s : State) : State := { State.resetOf s.params with host := s.host }

/-- A step in which the host presents nothing: the block is idle and all state is held (R216); the response of the last
command is no longer presented (R60: "for one clock"; log 7). -/
def idle (s : State) : State := { s with rsp := none }

/-- The state with the next event taken from the host. -/
def State.withHost (s : State) (es : List HostEvent) : State := { s with host := es }

end Sys2Proof.Machine
end

