-- ==== Sys2Proof/Machine/Step.lean ====
section
/-! DEFINITION. One step of the block: the next event of the host. The block has no program counter and fetches nothing
(spec/10_state.md rule R32). -/

namespace Sys2Proof.Machine

/-- One step (R2, R4): the next event is a command, which is executed completely and answered; or a reset; or there is none. -/
def step (s : State) : Host.Outcome State Fault Refusal :=
  match s.host with
  | []                => .next (idle s)
  | .reset :: es      => .next (resetEvent (s.withHost es))
  | .command c :: es  => accept c (s.withHost es)

/-- `s` with an instruction of the opcode table, its bits numbered as `Command.ofBits` numbers them, presented by the host as
the very next command (log 8). -/
def State.withFetchWord (s : State) (nbits w : Nat) : State :=
  s.withHost (.command (Command.ofBits nbits w) :: s.host)

end Sys2Proof.Machine
end

