-- ==== Sys2Proof/Machine/Binary64.lean ====
section
/-! DEFINITION. What the default WH_FLOAT (spec/47_wichmann_hill.md rule R190) is claimed to be, said over the rationals and
without the integer form of Machine/Float.lean: rounding to nearest even, and the number a pattern stands for. What IEEE 754
binary64 means is PRESUMED (log 12). -/

namespace Sys2Proof.Machine

/-- The number a `Scaled` stands for. -/
def Scaled.value (a : Scaled) : ℚ := (a.num : ℚ) / 2 ^ a.sh

/-- `y` is `x` rounded to 53 bits, to nearest, ties to even: 0 is kept, and a positive `x` in the range of normal numbers is scaled
into [2^52, 2^53) and replaced by the nearest integer there, the even one of two. -/
def roundsTo (x y : ℚ) : Prop :=
  (x = 0 ∧ y = 0) ∨
    ∃ (q : Nat) (e : Int), y = q / 2 ^ e ∧ (2 ^ 52 ≤ x * 2 ^ e ∧ x * 2 ^ e < 2 ^ 53) ∧
      |(q : ℚ) - x * 2 ^ e| ≤ 1 / 2 ∧ (|(q : ℚ) - x * 2 ^ e| = 1 / 2 → q % 2 = 0)

/-- The number a finite binary64 pattern stands for: sign 63, exponent 62:52 with a bias of 1023, fraction 51:0; exponent 0 is zero
and the subnormal numbers. -/
def binary64Value (w : Word) : ℚ :=
  let sign : ℚ := if w.toNat / 2 ^ 63 = 1 then -1 else 1
  let e : Nat := w.toNat / 2 ^ 52 % 2 ^ 11
  let f : Nat := w.toNat % 2 ^ 52
  sign * (if e = 0 then (f : ℚ) * 2 ^ (-1074 : Int) else ((2 ^ 52 + f : Nat) : ℚ) * 2 ^ ((e : Int) - 1075))

end Sys2Proof.Machine
end

