-- ==== Sys2Proof/Machine/Invariant.lean ====
section
/-! DEFINITION. The invariant of the block: the table of spec/10_state.md rule R29, and what it rests on (R12: VALID.e says that
the configuration is the one that last passed CONS; the bounds of HLEN and SEEDHIST, R19, R40, R140). -/

namespace Sys2Proof.Machine

/-! ## The rows of R29 -/

/-- R29, LCG. -/
abbrev Lcg.row (e : Lcg) : Prop :=
  1 ≤ e.cfg.mod.toNat ∧ e.cfg.mul.toNat < e.cfg.mod.toNat ∧ e.cfg.inc.toNat < e.cfg.mod.toNat ∧ e.x.toNat < e.cfg.mod.toNat ∧
    (obrPresent e.cfg.obr = true →
      obrStart e.cfg.obr < obrEnd e.cfg.obr ∧ obrStart e.cfg.obr ≤ 63 ∧ obrEnd e.cfg.obr ≤ 64 ∧
        obrReservedZero e.cfg.obr = true)

/-- R29, LEH. -/
abbrev Leh.row (e : Leh) : Prop :=
  1 ≤ e.cfg.mod.toNat ∧ e.cfg.mul.toNat < e.cfg.mod.toNat ∧ e.x.toNat < e.cfg.mod.toNat

/-- R29, LFG. -/
abbrev Lfg.row (kmax : Nat) (e : Lfg) : Prop :=
  1 ≤ e.cfg.mod.toNat ∧ 1 ≤ e.cfg.j.toNat ∧ e.cfg.j.toNat < e.cfg.k.toNat ∧ e.cfg.k.toNat ≤ kmax ∧ e.cfg.op.toNat ≤ 3 ∧
    e.hlen = e.cfg.k.toNat ∧ e.hist.length = e.cfg.k.toNat

/-- R29, LFSR: R is any 32-bit value. -/
abbrev Lfsr.row (e : Lfsr) : Prop := e.cfg.mask.toNat < 2 ^ 32

/-- R29, MSQ. -/
abbrev Msq.row (e : Msq) : Prop :=
  e.cfg.width.toNat ≤ 1 ∧ e.cfg.digits.toNat ≤ msqDmax e.cfg.width ∧ e.x.toNat < 2 ^ msqBits e.cfg.width

/-- R29, WH. -/
abbrev Wh.row (e : Wh) : Prop :=
  (1 ≤ e.s0.toNat ∧ e.s0.toNat ≤ 30268) ∧ (1 ≤ e.s1.toNat ∧ e.s1.toNat ≤ 30306) ∧ (1 ≤ e.s2.toNat ∧ e.s2.toNat ≤ 30322)

/-- The table of R29: every row holds while its engine is constructed. -/
abbrev State.rows (s : State) : Prop :=
  (s.lcg.valid = true → s.lcg.row) ∧ (s.leh.valid = true → s.leh.row) ∧
    (s.lfg.valid = true → s.lfg.row s.params.kmax) ∧ (s.lfsr.valid = true → s.lfsr.row) ∧
    (s.msq.valid = true → s.msq.row) ∧ (s.wh.valid = true → s.wh.row)

/-! ## The invariant -/

/-- The check list of CONS of an engine, on the configuration as it stands (R84, R205). -/
def State.checks (s : State) : Engine → List Check
  | .lcg  => lcgChecks s.lcg.cfg
  | .leh  => lehChecks s.leh.cfg
  | .lfg  => lfgChecks s.params.kmax s.lfg
  | .lfsr => lfsrChecks s.lfsr.cfg
  | .msq  => msqChecks s.msq.cfg
  | .wh   => whChecks s.wh.cfg

/-- R12: while an engine is constructed, its configuration is the one that last passed the checks of its CONS. -/
abbrev State.validated (s : State) : Prop :=
  ∀ e, s.valid e = true → firstFailing (s.checks e) = none

/-- HLEN and SEEDHIST stay in their bounds: HLEN is 0 to KMAX + 1 (R19, R140), SEEDHIST is canonical and has KMAX words (R40). -/
abbrev State.seedBounds (s : State) : Prop :=
  2 ≤ s.params.kmax ∧ s.lfg.hlen ≤ s.params.kmax + 1 ∧ s.lfg.seedHist.wf = true ∧
    ∀ a ∈ s.lfg.seedHist, a.1 < s.params.kmax

/-- The invariant that every step keeps. -/
abbrev State.Inv (s : State) : Prop := s.validated ∧ s.rows ∧ s.seedBounds

end Sys2Proof.Machine
end

