-- ==== Sys2Proof/Machine/Observe.lean ====
section
/-! DEFINITION. What a claim about several commands or about two states is written with: the parts of the state an engine owns
(spec/00_scope.md rule R3), the responses a list of commands gets, and the states that differ only in cells the spec leaves
unspecified and unread (spec/10_state.md rule R30). -/

namespace Sys2Proof.Machine

/-! ## The parts of a state -/

/-- Two states agree on everything engine `e` owns: its configuration, its state, its VALID flag. -/
abbrev State.sameEngine (s t : State) : Engine → Prop
  | .lcg  => s.lcg = t.lcg
  | .leh  => s.leh = t.leh
  | .lfg  => s.lfg = t.lfg
  | .lfsr => s.lfsr = t.lfsr
  | .msq  => s.msq = t.msq
  | .wh   => s.wh = t.wh

/-- Two states agree on the words of SEEDHIST that have been pushed: those below HLEN, of the KMAX there are. -/
abbrev State.samePushed (s t : State) : Prop :=
  s.lfg.hlen = t.lfg.hlen ∧
    ∀ i, i < s.lfg.hlen → i < s.params.kmax → s.lfg.seedHist.read i = t.lfg.seedHist.read i

/-- Two states agree on the configuration of engine `e`: its registers, and HLEN and the pushed words for LFG (R10). -/
abbrev State.sameConfig (s t : State) : Engine → Prop
  | .lcg  => s.lcg.cfg = t.lcg.cfg
  | .leh  => s.leh.cfg = t.leh.cfg
  | .lfg  => s.lfg.cfg = t.lfg.cfg ∧ s.samePushed t
  | .lfsr => s.lfsr.cfg = t.lfsr.cfg
  | .msq  => s.msq.cfg = t.msq.cfg
  | .wh   => s.wh.cfg = t.wh.cfg

/-- Two states agree on the state registers of engine `e` (R13). -/
abbrev State.sameRegs (s t : State) : Engine → Prop
  | .lcg  => s.lcg.x = t.lcg.x
  | .leh  => s.leh.x = t.leh.x
  | .lfg  => s.lfg.hist = t.lfg.hist
  | .lfsr => s.lfsr.r = t.lfsr.r
  | .msq  => s.msq.x = t.msq.x
  | .wh   => s.wh.s0 = t.wh.s0 ∧ s.wh.s1 = t.wh.s1 ∧ s.wh.s2 = t.wh.s2

/-- Two states agree on everything but what the spec leaves unspecified and says is never read (R30): the state registers and
HIST of engines that are not constructed, and the words of SEEDHIST at or above HLEN. -/
abbrev State.sameButUnspecified (s t : State) : Prop :=
  s.rsp = t.rsp ∧ s.host = t.host ∧ s.params = t.params ∧
    ∀ e, s.valid e = t.valid e ∧ s.sameConfig t e ∧ (s.valid e = true → s.sameRegs t e)

/-! ## Lists of commands -/

/-- The responses a list of commands gets, each with its command. -/
def responses : List Instr → State → List (Instr × Option Response)
  | [], _      => []
  | i :: is, s =>
    match exec i s with
    | .next t    => (i, t.rsp) :: responses is t
    | .fault _   => []
    | .refused _ => []

/-- The state after a list of commands. -/
def runAll : List Instr → State → Option State
  | [], s      => some s
  | i :: is, s =>
    match exec i s with
    | .next t    => runAll is t
    | .fault _   => none
    | .refused _ => none

/-- The commands of a list that are addressed to engine `e`. -/
def toEngine (e : Engine) (is : List Instr) : List Instr := is.filter (fun i => i.engine = e)

/-- The responses of a list that answer commands to engine `e`. -/
def fromEngine (e : Engine) (rs : List (Instr × Option Response)) : List (Instr × Option Response) :=
  rs.filter (fun r => r.1.engine = e)

end Sys2Proof.Machine
end

