-- ==== Sys2Proof/Machine/Port.lean ====
section
/-! DEFINITION. The command port and the response port clock by clock (spec/30_encoding.md rule R60), the reset input
(spec/70_reset_and_hazards.md rules R230, R231) and the latency (R240). The architectural state moves by `step` alone. The
latency is an open parameter: it is an argument `lat`, the number of clocks beyond the first between the acceptance of the
n-th command and its response (log 13). -/

namespace Sys2Proof.Machine

/-- The inputs sampled on a rising edge (R60). -/
structure Pins where
  rst      : Bool
  cmdValid : Bool
  cmdWord  : CmdWord
  cmdData  : Word
  deriving DecidableEq, Repr

/-- The outputs during a clock (R60): `rsp = none` is `rsp_valid = 0`, when the other response signals mean nothing. -/
structure PinsOut where
  cmdReady : Bool
  rsp      : Option Response
  deriving DecidableEq, Repr

/-- The clocked block: the architectural state, the command accepted and not yet answered with the clocks it still takes, and
how many commands have been accepted. -/
structure Port where
  core     : State
  inFlight : Option (Command × Nat)
  accepted : Nat
  deriving DecidableEq, Repr

/-- The command on the pins. -/
def Pins.command (i : Pins) : Command := ⟨i.cmdWord, i.cmdData⟩

/-- The state after one step with the events `es` at the port. `step` always answers a next state (R4). -/
def drive (es : List HostEvent) (s : State) : State :=
  match step (s.withHost es) with
  | .next t    => t
  | .fault _   => s
  | .refused _ => s

/-- The block can accept a command: none is in flight, and no response is being presented (DESIGN CHOICE, log 13: the spec says
`cmd_ready` "may be 1 again in the clock after the response"). -/
def Port.ready (p : Port) : Bool := p.inFlight.isNone && p.core.rsp.isNone

/-- The outputs during a clock. "While `rst = 1`, `cmd_ready = 0` and `rsp_valid = 0`" (R230). -/
def Port.outputs (p : Port) (i : Pins) : PinsOut :=
  if i.rst then ⟨false, none⟩ else ⟨p.ready, p.core.rsp⟩

/-- One rising edge. Reset has priority over everything and abandons a command in flight (R230, R231). -/
def Port.clock (lat : Nat → Nat) (p : Port) (i : Pins) : Port :=
  if i.rst then { p with core := drive [.reset] p.core, inFlight := none }
  else
    match p.inFlight with
    | some (c, n + 1) => { p with inFlight := some (c, n) }
    | some (c, 0)     => { p with core := drive [.command c] p.core, inFlight := none }
    | none            =>
      if p.core.rsp.isSome then { p with core := drive [] p.core }
      else if i.cmdValid then { p with inFlight := some (i.command, lat p.accepted), accepted := p.accepted + 1 }
      else p

/-- Several edges, in order. -/
def Port.clocks (lat : Nat → Nat) (p : Port) (ins : List Pins) : Port := ins.foldl (Port.clock lat) p

end Sys2Proof.Machine
end

