-- ==== Sys2Proof/Machine/Pseudo.lean ====
section
/-! DEFINITION. The pseudo-commands of the assembler and their expansions (spec/30_encoding.md rule R69). -/

namespace Sys2Proof.Machine

/-- The pseudo-commands (R69). -/
inductive Pseudo where
  | seed (e : Engine) (v : Word)
  | obrset (s n : BitVec 8)
  | obrclr
  | hload (vs : List Word)
  | init (e : Engine) (p : Preset) (v : Word)
  | lfgcfg (m j k op : Word)
  deriving DecidableEq, Repr

/-- The SEED register of an engine that has one register of that name (R69: LCG, LEH, LFSR or MSQ). -/
def seedReg : Engine → Option CfgReg
  | .lcg  => some (.lcg .seed)
  | .leh  => some (.leh .seed)
  | .lfsr => some (.lfsr .seed)
  | .msq  => some (.msq .seed)
  | .lfg  => none
  | .wh   => none

/-- LDPRE of a preset into an engine that has it (R67, R69: eng is LCG or LEH). DESIGN CHOICE (log 14): R68 does not say whether
the assembler takes LDPRE LEH with a preset above 3, whose words 0x03100400 to 0x03100700 are illegal; the text is rejected, and
INIT with it. -/
def ldpre : Engine → Preset → Option Instr
  | .lcg, p => some (.ldpreLcg p)
  | .leh, p => if p.forLehmer then some (.ldpreLeh p) else none
  | _, _    => none

/-- The OBR value of `OBRSET s, n`: `1 + s*2^8 + n*2^16` (R69). -/
def obrValue (s n : BitVec 8) : Word := BitVec.ofNat 64 (1 + s.toNat * 2 ^ 8 + n.toNat * 2 ^ 16)

/-- The commands a pseudo-command stands for, in order; none if it names an engine or a preset it may not (R69). -/
def Pseudo.expand : Pseudo → Option (List Instr)
  | .seed e v         => (seedReg e).map (fun r => [.wrcfg r v])
  | .obrset s n       => some [.wrcfg (.lcg .obr) (obrValue s n)]
  | .obrclr           => some [.wrcfg (.lcg .obr) 0]
  | .hload vs         => some (.hclr :: vs.map .hpush)
  | .init e p v       =>
    match ldpre e p, seedReg e with
    | some i, some r => some [i, .wrcfg r v, .cons e]
    | _, _           => none
  | .lfgcfg m j k op  =>
    some [.wrcfg (.lfg .mod) m, .wrcfg (.lfg .j) j, .wrcfg (.lfg .k) k, .wrcfg (.lfg .op) op]

end Sys2Proof.Machine
end

