-- ==== Sys2Proof/Machine/Ring.lean ====
section
/-! DEFINITION. The history as the ring of words the spec expects of an implementation: HIST and the head pointer HEAD
(spec/10_state.md rule R21, spec/20_memory.md rule R43). `exec` uses the logical list; that the two agree is a statement. -/

namespace Sys2Proof.Machine

/-- HIST (its first k words) and HEAD. -/
structure HistRing where
  words : List Word
  head  : Nat
  deriving DecidableEq, Repr

/-- HEAD is in [0, k-1] (R21). -/
def HistRing.wf (r : HistRing) : Bool := decide (r.head < r.words.length)

/-- `H[i] = HIST[(HEAD + i) mod k]` (R21, R43). -/
def HistRing.logical (r : HistRing) : List Word :=
  (List.range r.words.length).map (fun i => r.words.getD ((r.head + i) % r.words.length) 0)

/-- After CONS: `HEAD = 0` and `HIST[i] = SEEDHIST[i]` (R43, R144). -/
def HistRing.load (seed : WordMem) (k : Nat) : HistRing := ⟨seed.take k, 0⟩

/-- Write the new value at `HIST[HEAD]`, then `HEAD <- (HEAD + 1) mod k` (R43, R145). -/
def HistRing.append (r : HistRing) (next : Word) : HistRing :=
  ⟨r.words.set r.head next, (r.head + 1) % r.words.length⟩

/-- The tap at the 1-based position `p`: `HIST[(HEAD + p - 1) mod k]` (R145, ring form). -/
def HistRing.tap (r : HistRing) (p : Nat) : Word := r.words.getD ((r.head + p - 1) % r.words.length) 0

/-- One advance of the ring, with the value appended (R145, ring form). -/
def HistRing.advance (c : LfgCfg) (r : HistRing) : HistRing × Word :=
  let w := (LfgOp.ofWord c.op).apply (r.tap c.j.toNat) (r.tap c.k.toNat)
  let next := BitVec.ofNat 64 (w % (c.mod.toNat : Int)).toNat
  (r.append next, next)

end Sys2Proof.Machine
end

