-- ==== Sys2Proof/Safety.lean ====
section
/-! DEFINITION. Safe states and the states runs reach. -/

namespace Sys2Proof.Machine

/-- The block goes on: its step answers a next state (R4: every command is a total function). -/
def State.Safe (s : State) : Prop := ∃ t, step s = .next t

/-- The states a block reaches: it is reset, with parameters the spec allows (KMAX at least 2, R40), whatever the host
presents, and it takes steps. -/
inductive Reachable : State → Prop where
  | reset (p : Params) (es : List HostEvent) (h : 2 ≤ p.kmax) : Reachable ((State.resetOf p).withHost es)
  | after (s t : State) (h : Reachable s) (hs : step s = .next t) : Reachable t

end Sys2Proof.Machine
end

