-- ==== Sys2Proof/Certificates/Slice0/Obligations.lean ====
section
/-! DEFINITION. The statements for the provers. Each docstring names the rules of spec/ it formalises. `x.toNat` is the unsigned
number a register holds; arithmetic on it is exact. -/

open Sys2Proof Sys2Proof.Machine

/-! ## Command words: 30_encoding.md -/

/-- R61, R63, R66, R68: every legal command, with every data operand, is read back from the word and data it is presented as. -/
def Obligations.DecodingAnEncodedCommandGivesItBack : Prop :=
  ∀ i : Instr, i.wf = true → decode (encode i) = .ok i

/-- R65, R66: a word that decodes stands for a legal command, whose encoding is that word; the data is taken whole by WRCFG and
HPUSH and ignored by every other command. -/
def Obligations.EncodingADecodedCommandGivesTheWordBack : Prop :=
  ∀ (c : Command) (i : Instr), decode c = .ok i →
    i.wf = true ∧ (encode i).word = c.word ∧ (encode i).data = (if i.usesData then c.data else 0) ∧
      (i.usesData = false → ∀ d : Word, decode ⟨c.word, d⟩ = .ok i)

/-- R63, R66: the 67 words that R63 lists are exactly those that pass the four tests of R66, written out on numbers; they are the
legal ones, with any data. Every other word is illegal: presented to the block, it is answered ILLEGAL_CMD, 0, 0, and no state
changes. -/
def Obligations.TheLegalWordsAreThe67OfTheTable : Prop :=
  legalWords.length = 67 ∧ legalWords.Nodup ∧
    ∀ c : Command,
      let w := c.word.toNat
      let opc := w / 2 ^ 24
      let eng := w / 2 ^ 20 % 2 ^ 4
      let idx := w / 2 ^ 8 % 2 ^ 8
      (c.word ∈ legalWords ↔
        (w / 2 ^ 16 % 2 ^ 4 = 0 ∧ w % 2 ^ 8 = 0) ∧ (1 ≤ opc ∧ opc ≤ 7) ∧
        ((opc = 3 → eng ≤ 1) ∧ (6 ≤ opc → eng = 2) ∧ (opc ≤ 5 → eng ≤ 5)) ∧
        (opc ≤ 2 →
          (eng, idx) ∈ [(0, 0), (0, 1), (0, 2), (0, 3), (0, 4), (1, 0), (1, 1), (1, 3), (2, 0), (2, 1), (2, 2), (2, 3), (2, 4)] ++
            [(3, 0), (3, 1), (4, 0), (4, 1), (4, 2), (5, 0), (5, 1), (5, 2)]) ∧
        (opc = 1 → (eng, idx) ≠ (2, 4)) ∧
        (opc = 3 → (eng = 0 → idx ≤ 7) ∧ (eng = 1 → idx ≤ 3)) ∧ (4 ≤ opc → idx = 0)) ∧
      (c.word ∈ legalWords → ∃ i, decode c = .ok i) ∧
      (c.word ∉ legalWords → ∀ (s : State) (es : List HostEvent), s.host = .command c :: es →
        step s = .next { s with host := es, rsp := some ⟨.illegalCmd, 0, 0⟩ })

/-- R61: `cmd_word = OPC * 2^24 + ENG * 2^20 + IDX * 2^8` for every legal command, the fields being bits 31:24 (the operation
code), 23:20 (the engine number) and 15:8 (the register index, the preset number, or 0) of the word, and bits 19:16 and 7:0
being 0. -/
def Obligations.EveryLegalWordHasTheOneLayout : Prop :=
  ∀ i : Instr, i.wf = true →
    let w := (encode i).word.toNat
    w = (w / 2 ^ 24) * 2 ^ 24 + (w / 2 ^ 20 % 2 ^ 4) * 2 ^ 20 + (w / 2 ^ 8 % 2 ^ 8) * 2 ^ 8 ∧
      w / 2 ^ 16 % 2 ^ 4 = 0 ∧ w % 2 ^ 8 = 0 ∧
      w / 2 ^ 20 % 2 ^ 4 = i.engine.num.toNat ∧
      w / 2 ^ 24 = (match i with
        | .wrcfg _ _ => 1 | .rdcfg _ => 2 | .ldpreLcg _ => 3 | .ldpreLeh _ => 3
        | .consLcg | .consLeh | .consLfg | .consLfsr | .consMsq | .consWh => 4
        | .advLcg | .advLeh | .advLfg | .advLfsr | .advMsq | .advWh => 5
        | .hpush _ => 6 | .hclr => 7) ∧
      w / 2 ^ 8 % 2 ^ 8 = (match i with
        | .wrcfg r _ => r.index.toNat | .rdcfg r => r.index.toNat
        | .ldpreLcg p => p.num.toNat | .ldpreLeh p => p.num.toNat
        | .consLcg | .consLeh | .consLfg | .consLfsr | .consMsq | .consWh => 0
        | .advLcg | .advLeh | .advLfg | .advLfsr | .advMsq | .advWh => 0
        | .hpush _ => 0 | .hclr => 0)

/-- R63: words of the table, one of each operation at least, decode to the commands the table names (a sanity statement). -/
def Obligations.WordsOfTheTableDecode : Prop :=
  decode ⟨0x01000300, 1⟩ = .ok (.wrcfg (.lcg .seed) 1) ∧ decode ⟨0x02200400, 0⟩ = .ok (.rdcfg (.lfg .hlen)) ∧
  decode ⟨0x03000400, 0⟩ = .ok (.ldpreLcg .borland) ∧ decode ⟨0x03100300, 0⟩ = .ok (.ldpreLeh .zx81) ∧
  decode ⟨0x04300000, 0⟩ = .ok .consLfsr ∧ decode ⟨0x05500000, 0⟩ = .ok .advWh ∧
  decode ⟨0x06200000, 6⟩ = .ok (.hpush 6) ∧ decode ⟨0x07200000, 0⟩ = .ok .hclr

/-- R41: the configuration address map. A pair (ENG, IDX) of the table names the register the table gives it, for RDCFG and, but
for the read-only HLEN, for WRCFG; RDCFG or WRCFG to every other pair, and WRCFG to (2, 4), is answered ILLEGAL_CMD and changes
nothing. -/
def Obligations.TheAddressMapIsComplete : Prop :=
  let cells : List (Nat × Nat × CfgReg) :=
    [(0, 0, .lcg .mod), (0, 1, .lcg .mul), (0, 2, .lcg .inc), (0, 3, .lcg .seed), (0, 4, .lcg .obr), (1, 0, .leh .mod),
      (1, 1, .leh .mul), (1, 3, .leh .seed), (2, 0, .lfg .mod), (2, 1, .lfg .j), (2, 2, .lfg .k)] ++
    [(2, 3, .lfg .op), (2, 4, .lfg .hlen), (3, 0, .lfsr .seed), (3, 1, .lfsr .mask), (4, 0, .msq .seed), (4, 1, .msq .digits),
      (4, 2, .msq .width), (5, 0, .wh .seed0), (5, 1, .wh .seed1), (5, 2, .wh .seed2)]
  ∀ (e : BitVec 4) (i : BitVec 8) (d : Word) (s : State) (es : List HostEvent),
    let reading := step { s with host := .command ⟨BitVec.ofNat 32 (0x02000000 + e.toNat * 2 ^ 20 + i.toNat * 2 ^ 8), d⟩ :: es }
    let writing := step { s with host := .command ⟨BitVec.ofNat 32 (0x01000000 + e.toNat * 2 ^ 20 + i.toNat * 2 ^ 8), d⟩ :: es }
    let refused : State := { s with host := es, rsp := some ⟨.illegalCmd, 0, 0⟩ }
    (∀ r, (e.toNat, i.toNat, r) ∈ cells →
      reading = exec (.rdcfg r) { s with host := es } ∧
      (r ≠ .lfg .hlen → writing = exec (.wrcfg r d) { s with host := es })) ∧
    ((∀ r, (e.toNat, i.toNat, r) ∉ cells) → reading = .next refused ∧ writing = .next refused) ∧
    (e = 2 → i = 4 → writing = .next refused)

/-! ## The step -/

/-- R2, R4: when the host presents a word that decodes, the step is the command's meaning, on the state with that event taken. -/
def Obligations.AStepRunsTheDecodedCommand : Prop :=
  ∀ (s : State) (c : Command) (es : List HostEvent) (i : Instr),
    s.host = .command c :: es → decode c = .ok i → step s = exec i { s with host := es }

/-- R230, R30, R216: when the host asserts reset, every VALID is 0, every configuration register and HLEN read 0, no response is
pending, and nothing else the host presents is lost. When it presents nothing, all state is held; the last response is presented
no longer (log 7). -/
def Obligations.ResetEventsResetAndIdleStepsHold : Prop :=
  (∀ s : State, s.host = [] → step s = .next { s with rsp := none }) ∧
  ∀ (s : State) (es : List HostEvent), s.host = .reset :: es →
    ∃ t, step s = .next t ∧ (∀ e, t.valid e = false) ∧ (∀ r, t.readCfg r = 0) ∧ t.lfg.hlen = 0 ∧ t.rsp = none ∧
      t.host = es ∧ t.params = s.params

/-- R30: the state right after reset: every VALID 0, every configuration register 0, HLEN 0, no response pending. -/
def Obligations.TheResetStateIsAsR30Says : Prop :=
  (∀ e, State.reset.valid e = false) ∧ (∀ r, State.reset.readCfg r = 0) ∧ State.reset.lfg.hlen = 0 ∧ State.reset.rsp = none

/-- R4: every command is a deterministic total function of the state: every step answers a next state. -/
def Obligations.EveryStepAnswersANextState : Prop :=
  ∀ s : State, s.Safe

/-- R2, R64, R200, R203: every command presented, legal or not, gets one response; if its status is not OK, both its data are 0
and nothing but the response port has changed. -/
def Obligations.AFailureIsAResponseAndNothingElse : Prop :=
  ∀ (s t : State) (c : Command) (es : List HostEvent),
    s.host = .command c :: es → step s = .next t →
      ∃ r : Response, t.rsp = some r ∧
        (r.status ≠ .ok → r.data = 0 ∧ r.aux = 0 ∧ t = { s with host := es, rsp := some r })

/-! ## Whole-machine rules -/

/-- R201: WRCFG, RDCFG, LDPRE, HPUSH and HCLR never fail as legal commands; ADV fails only as NOT_CONSTRUCTED; CONS fails only
with a ConfigurationError. A word outside the legal ones fails as ILLEGAL_CMD. -/
def Obligations.WhichCommandsFailAndHow : Prop :=
  (∀ (s t : State) (c : Command) (es : List HostEvent), s.host = .command c :: es → step s = .next t →
    (c.word ∉ legalWords ↔ t.rsp = some ⟨.illegalCmd, 0, 0⟩)) ∧
  ∀ (i : Instr) (s t : State) (r : Response),
    i.wf = true → exec i s = .next t → t.rsp = some r → r.status ≠ .ok →
      (∃ e, i = .cons e ∧ r.status.isConfigurationError = true) ∨
      (∃ e, i = .adv e ∧ r.status = .notConstructed ∧ s.valid e = false)

/-- R202: the codes of the statuses; those of the ConfigurationErrors have 1 in bits 7:4, and no others do. -/
def Obligations.StatusCodesAreThoseOfR202 : Prop :=
  [Status.ok, .illegalCmd, .notConstructed].map (fun st => st.code.toNat) = [0x00, 0x01, 0x02] ∧
  [Status.mulRange, .incRange, .seedRange, .obrInvalid, .lagWindow, .histLen, .lfsrZeroSeed, .whSeedRange, .modZero, .kRange,
    .msqDigits, .fieldRange].map (fun st => st.code.toNat) =
    [0x10, 0x11, 0x12, 0x13, 0x14, 0x15, 0x16, 0x17, 0x18, 0x19, 0x1A, 0x1B] ∧
  ∀ st : Status, st.isConfigurationError = true ↔ 0x10 ≤ st.code.toNat ∧ st.code.toNat ≤ 0x1B

/-- R12: VALID.e after a command. It is set by a CONS of e that answers OK and by nothing else; it is cleared by WRCFG, LDPRE,
HPUSH and HCLR of e, whatever they write, and by reset; every other command leaves it. -/
def Obligations.ValidIsSetByConsAndClearedByConfiguration : Prop :=
  (∀ (s t : State) (e : Engine) (es : List HostEvent), s.host = .reset :: es → step s = .next t → t.valid e = false) ∧
  ∀ (i : Instr) (s t : State) (e : Engine),
    i.wf = true → exec i s = .next t →
      t.valid e =
        (if i = .cons e ∧ t.rsp = some ⟨.ok, 0, 0⟩ then true
         else if i.engine ≠ e then s.valid e
         else match i with
           | .wrcfg _ _ | .ldpreLcg _ | .ldpreLeh _ | .hpush _ | .hclr => false
           | _ => s.valid e)

/-- R11, R19, R42: a configuration register is written only by WRCFG of that register and LDPRE of its engine, HLEN only by
HPUSH and HCLR, and a word of SEEDHIST only by HPUSH. -/
def Obligations.ConfigurationIsWrittenOnlyByItsCommands : Prop :=
  ∀ (i : Instr) (s t : State) (r : CfgReg),
    i.wf = true → exec i s = .next t →
      (t.readCfg r ≠ s.readCfg r →
        (∃ v, i = .wrcfg r v) ∨ (r.engine = .lcg ∧ ∃ p, i = .ldpreLcg p) ∨ (r.engine = .leh ∧ ∃ p, i = .ldpreLeh p) ∨
          (r = .lfg .hlen ∧ ((∃ v, i = .hpush v) ∨ i = .hclr))) ∧
      (t.lfg.hlen ≠ s.lfg.hlen → (∃ v, i = .hpush v) ∨ i = .hclr) ∧
      (t.lfg.seedHist ≠ s.lfg.seedHist → ∃ v, i = .hpush v)

/-- R13: a state register of e is written only by a CONS of e and an ADV of e that answer OK. -/
def Obligations.StateRegistersAreWrittenOnlyByConsAndAdv : Prop :=
  ∀ (i : Instr) (s t : State) (e : Engine),
    exec i s = .next t → ¬ t.sameRegs s e →
      (i = .cons e ∨ i = .adv e) ∧ ∃ r, t.rsp = some r ∧ r.status = .ok

/-- R3: a command addressed to one engine writes only that engine's state, and what it writes and answers depends on that
engine's state alone. -/
def Obligations.EnginesAreIndependent : Prop :=
  ∀ (i : Instr) (s t : State), exec i s = .next t →
    (∀ e, e ≠ i.engine → t.sameEngine s e) ∧ t.host = s.host ∧ t.params = s.params ∧
    ∀ s' t' : State, s'.sameEngine s i.engine → s'.params = s.params → exec i s' = .next t' →
      t'.sameEngine t i.engine ∧ t'.rsp = t.rsp

/-- R3, R49: whatever commands to other engines are mixed in, the commands to one engine get the responses they would get on
their own. -/
def Obligations.InterleavingDoesNotShowInAnEnginesResponses : Prop :=
  ∀ (e : Engine) (is : List Instr) (s : State),
    fromEngine e (responses is s) = responses (toEngine e is) s

/-- R89: from states with the same configuration of e, a CONS of e followed by n ADV of e gets the same responses, whatever
happened before (any states of the invariant) and whatever commands to other engines are interleaved. -/
def Obligations.ASequenceIsDeterminedByItsConfiguration : Prop :=
  ∀ (e : Engine) (n : Nat) (is js : List Instr) (s t : State),
    toEngine e is = .cons e :: List.replicate n (.adv e) →
    toEngine e js = .cons e :: List.replicate n (.adv e) →
    s.Inv → t.Inv → s.params = t.params → s.sameConfig t e →
      fromEngine e (responses is s) = fromEngine e (responses js t)

/-- R84 corner case (a): a CONS of a running engine with its configuration unchanged restarts the sequence: n ADV, then CONS and
n ADV again, get the n responses twice. -/
def Obligations.ConsRestartsTheSequence : Prop :=
  ∀ (e : Engine) (n : Nat) (s t : State), s.Inv →
    runAll (.cons e :: List.replicate n (.adv e)) s = some t →
      responses (.cons e :: List.replicate n (.adv e)) t = responses (.cons e :: List.replicate n (.adv e)) s

/-- R30, R232: what R30 leaves unspecified (the state registers and HIST of engines not constructed, the words of SEEDHIST at or
above HLEN) is never observed: two states that differ only there stay so, step by step, with the same responses. Canonical
SEEDHISTs are a premise; `StepsKeepTheInvariant` shows that they stay canonical. -/
def Obligations.UnspecifiedCellsAreNeverObserved : Prop :=
  ∀ s t s' : State, s.lfg.seedHist.wf = true → t.lfg.seedHist.wf = true →
    s.sameButUnspecified t → step s = .next s' →
      ∃ t', step t = .next t' ∧ s'.sameButUnspecified t'

/-! ## Invariants -/

/-- The invariant holds after reset, whatever KMAX (at least 2, R40) and WH_FLOAT are, and whatever the host presents. -/
def Obligations.TheInvariantHoldsAtReset : Prop :=
  State.reset.Inv ∧
    ∀ (p : Params) (es : List HostEvent), 2 ≤ p.kmax → State.Inv { State.resetOf p with host := es }

/-- R29, R12: every step keeps the invariant, from every state that meets it: the table of R29, that VALID.e means a validated
configuration, and the bounds of HLEN and SEEDHIST. -/
def Obligations.StepsKeepTheInvariant : Prop :=
  ∀ s t : State, s.Inv → step s = .next t → t.Inv

/-- Every state a block reaches, with any parameters the spec allows and any events of the host, meets the invariant and goes
on. -/
def Obligations.ReachableStatesAreSound : Prop :=
  ∀ s : State, Reachable s → s.Inv ∧ s.Safe

/-- R84 corner case (b): CONS cannot fail while VALID.e = 1. -/
def Obligations.ConsCannotFailWhileConstructed : Prop :=
  ∀ (s t : State) (e : Engine), s.Inv → s.valid e = true → exec (.cons e) s = .next t → t.rsp = some ⟨.ok, 0, 0⟩

/-- R90, R91: in every state of the invariant, the intermediates of constructed engines fit the datapaths of R90, and no modulus
is 0. -/
def Obligations.NoIntermediateOverflows : Prop :=
  ∀ s : State, s.Inv →
    (s.lcg.valid = true → 1 ≤ s.lcg.cfg.mod.toNat ∧
      s.lcg.cfg.mul.toNat * s.lcg.x.toNat + s.lcg.cfg.inc.toNat < 2 ^ 128) ∧
    (s.leh.valid = true → 1 ≤ s.leh.cfg.mod.toNat ∧ s.leh.cfg.mul.toNat * s.leh.x.toNat < 2 ^ 128) ∧
    (s.lfg.valid = true → 1 ≤ s.lfg.cfg.mod.toNat) ∧
    (∀ u v : Word, u.toNat + v.toNat ≤ 2 ^ 65 - 2 ∧ u.toNat * v.toNat < 2 ^ 128 ∧ (u ^^^ v).toNat < 2 ^ 64 ∧
      -(2 ^ 64 - 1 : Int) ≤ (u.toNat : Int) - v.toNat ∧ (u.toNat : Int) - v.toNat ≤ 2 ^ 64 - 1) ∧
    (s.msq.valid = true → s.msq.x.toNat * s.msq.x.toNat < 2 ^ (2 * (if s.msq.cfg.width = 0 then 32 else 64)) ∧
      mid (s.msq.x.toNat * s.msq.x.toNat) s.msq.cfg.digits.toNat < 2 ^ (if s.msq.cfg.width = 0 then 32 else 64)) ∧
    (s.wh.valid = true → 171 * s.wh.s0.toNat < 2 ^ 23 ∧ 172 * s.wh.s1.toNat < 2 ^ 23 ∧ 170 * s.wh.s2.toNat < 2 ^ 23 ∧
      s.wh.s0.toNat * 918999161 + s.wh.s1.toNat * 917846887 + s.wh.s2.toNat * 917362583 < 2 ^ 47)

/-! ## Configuration: 40_shared_commands.md, 41_preset_rom.md -/

/-- R80: WRCFG of a writable register: that register reads the value written, all 64 bits of it; VALID.e is cleared; the response
is OK, 0, 0; every other configuration register, all state registers, SEEDHIST and the other engines are as before. WRCFG of
HLEN, and of a pair (ENG, IDX) that names no writable register, is answered ILLEGAL_CMD and changes nothing. -/
def Obligations.WrcfgStoresTheWordAndClearsValid : Prop :=
  (∀ (r : CfgReg) (v : Word),
    (encode (.wrcfg r v)).word.toNat = 0x01000000 + r.engine.num.toNat * 2 ^ 20 + r.index.toNat * 2 ^ 8) ∧
  (∀ (r : CfgReg) (v : Word) (s : State), r ≠ .lfg .hlen →
    ∃ t, exec (.wrcfg r v) s = .next t ∧ t.readCfg r = v ∧ (∀ r', r' ≠ r → t.readCfg r' = s.readCfg r') ∧
      t.lfg.hlen = s.lfg.hlen ∧ t.lfg.seedHist = s.lfg.seedHist ∧ (∀ e, t.sameRegs s e) ∧
      t.valid r.engine = false ∧ (∀ e, e ≠ r.engine → t.sameEngine s e) ∧
      t.rsp = some ⟨.ok, 0, 0⟩ ∧ t.host = s.host ∧ t.params = s.params) ∧
  (∀ (v : Word) (s : State), exec (.wrcfg (.lfg .hlen) v) s = .next { s with rsp := some ⟨.illegalCmd, 0, 0⟩ }) ∧
  ∀ (e : BitVec 4) (i : BitVec 8) (d : Word) (s : State) (es : List HostEvent),
    (∀ r : CfgReg, r ≠ .lfg .hlen → ¬ (r.engine.num = e ∧ r.index = i)) →
    s.host = .command ⟨BitVec.ofNat 32 (0x01000000 + e.toNat * 2 ^ 20 + i.toNat * 2 ^ 8), d⟩ :: es →
      step s = .next { s with host := es, rsp := some ⟨.illegalCmd, 0, 0⟩ }

/-- R82: RDCFG answers the register, or HLEN as a number of 64 bits, and changes no state. The cells are written out one by one.
RDCFG of a pair (ENG, IDX) that names no cell is answered ILLEGAL_CMD and changes nothing. That HLEN is answered modulo 2^64 in
every state is the model's choice (log 10, DEDUCED): the spec says nothing where HLEN does not fit into 64 bits. -/
def Obligations.RdcfgAnswersTheRegister : Prop :=
  (∀ (e : BitVec 4) (i : BitVec 8) (d : Word) (s : State) (es : List HostEvent),
    (∀ r : CfgReg, ¬ (r.engine.num = e ∧ r.index = i)) →
    s.host = .command ⟨BitVec.ofNat 32 (0x02000000 + e.toNat * 2 ^ 20 + i.toNat * 2 ^ 8), d⟩ :: es →
      step s = .next { s with host := es, rsp := some ⟨.illegalCmd, 0, 0⟩ }) ∧
  (∀ r : CfgReg, (encode (.rdcfg r)).word.toNat = 0x02000000 + r.engine.num.toNat * 2 ^ 20 + r.index.toNat * 2 ^ 8) ∧
  ∀ (r : CfgReg) (s : State), ∃ d : Word,
    exec (.rdcfg r) s = .next { s with rsp := some ⟨.ok, d, 0⟩ } ∧
    d = (match r with
      | .lcg .mod => s.lcg.cfg.mod | .lcg .mul => s.lcg.cfg.mul | .lcg .inc => s.lcg.cfg.inc
      | .lcg .seed => s.lcg.cfg.seed | .lcg .obr => s.lcg.cfg.obr
      | .leh .mod => s.leh.cfg.mod | .leh .mul => s.leh.cfg.mul | .leh .seed => s.leh.cfg.seed
      | .lfg .mod => s.lfg.cfg.mod | .lfg .j => s.lfg.cfg.j | .lfg .k => s.lfg.cfg.k | .lfg .op => s.lfg.cfg.op
      | .lfg .hlen => BitVec.ofNat 64 s.lfg.hlen
      | .lfsr .seed => s.lfsr.cfg.seed | .lfsr .mask => s.lfsr.cfg.mask
      | .msq .seed => s.msq.cfg.seed | .msq .digits => s.msq.cfg.digits | .msq .width => s.msq.cfg.width
      | .wh .seed0 => s.wh.cfg.seed0 | .wh .seed1 => s.wh.cfg.seed1 | .wh .seed2 => s.wh.cfg.seed2)

/-- R100: the eight rows of the preset ROM, addressed by the preset number, as numbers: modulus, multiplier, increment, OBR. -/
def Obligations.TheRomHoldsTheTable : Prop :=
  (List.range 9).map Preset.ofNat? =
    [some .minstd, some .minstdRand, some .randu, some .zx81, some .borland, some .glibc, some .posix, some .ranqd1, none] ∧
  [Preset.minstd, .minstdRand, .randu, .zx81, .borland, .glibc, .posix, .ranqd1].map
    (fun p => ((rom p).modulus.toNat, (rom p).multiplier.toNat, (rom p).increment.toNat, (rom p).obr.toNat)) =
  [(2 ^ 31 - 1, 16807, 0, 0), (2 ^ 31 - 1, 48271, 0, 0), (2 ^ 31, 65539, 0, 0), (65537, 75, 74, 0),
   (2 ^ 31, 22695477, 1, 0x1E1001), (2 ^ 31, 1103515245, 12345, 0x1E0001), (2 ^ 48, 25214903917, 11, 0x2F1001),
   (2 ^ 32, 1664525, 1013904223, 0)]

/-- R102, R103: LDPRE.LCG writes MOD, MUL, INC and OBR from the ROM row, clears VALID.LCG, and leaves SEED and everything else.
LDPRE.LEH of a preset 0 to 3 writes MOD and MUL from the ROM row, clears VALID.LEH, and leaves SEED and everything else. A preset
number above 7, for LEH above 3, is answered ILLEGAL_CMD and changes nothing. -/
def Obligations.LdpreLoadsTheRow : Prop :=
  (∀ (n : BitVec 8) (d : Word) (s : State) (es : List HostEvent),
    (8 ≤ n.toNat → s.host = .command ⟨BitVec.ofNat 32 (0x03000000 + n.toNat * 2 ^ 8), d⟩ :: es →
      step s = .next { s with host := es, rsp := some ⟨.illegalCmd, 0, 0⟩ }) ∧
    (4 ≤ n.toNat → s.host = .command ⟨BitVec.ofNat 32 (0x03100000 + n.toNat * 2 ^ 8), d⟩ :: es →
      step s = .next { s with host := es, rsp := some ⟨.illegalCmd, 0, 0⟩ })) ∧
  ∀ (p : Preset) (s : State),
    (encode (.ldpreLcg p)).word.toNat = 0x03000000 + p.num.toNat * 2 ^ 8 ∧
    exec (.ldpreLcg p) s = .next { s with
      lcg := { s.lcg with
        cfg := ⟨(rom p).modulus, (rom p).multiplier, (rom p).increment, s.lcg.cfg.seed, (rom p).obr⟩, valid := false },
      rsp := some ⟨.ok, 0, 0⟩ } ∧
    (encode (.ldpreLeh p)).word.toNat = 0x03100000 + p.num.toNat * 2 ^ 8 ∧
    (p.num.toNat ≤ 3 → exec (.ldpreLeh p) s = .next { s with
      leh := { s.leh with cfg := ⟨(rom p).modulus, (rom p).multiplier, s.leh.cfg.seed⟩, valid := false },
      rsp := some ⟨.ok, 0, 0⟩ }) ∧
    (3 < p.num.toNat → exec (.ldpreLeh p) s = .next { s with rsp := some ⟨.illegalCmd, 0, 0⟩ })

/-- R104: every ROM row passes the parameter checks (the ranges of OBR where it says PRESENT), so after LDPRE the only check of
CONS that can fail is `seed < modulus`, for every preset, on both engines. -/
def Obligations.AfterAPresetOnlyTheSeedCanFail : Prop :=
  (∀ p : Preset,
    let row := rom p
    let obr := row.obr.toNat
    row.multiplier.toNat < row.modulus.toNat ∧ row.increment.toNat < row.modulus.toNat ∧
      obr / 2 % 2 ^ 7 = 0 ∧ obr / 2 ^ 24 = 0 ∧
      (obr % 2 = 1 → obr / 2 ^ 8 % 2 ^ 8 < obr / 2 ^ 16 % 2 ^ 8 ∧ obr / 2 ^ 8 % 2 ^ 8 ≤ 63 ∧ obr / 2 ^ 16 % 2 ^ 8 ≤ 64)) ∧
  (∀ (p : Preset) (s t : State), exec (.ldpreLcg p) s = .next t →
    exec .consLcg t = .next
      (if s.lcg.cfg.seed.toNat < (rom p).modulus.toNat then
        { t with lcg := { t.lcg with x := s.lcg.cfg.seed, valid := true }, rsp := some ⟨.ok, 0, 0⟩ }
       else { t with rsp := some ⟨.seedRange, 0, 0⟩ })) ∧
  (∀ (p : Preset) (s t : State), p.num.toNat ≤ 3 → exec (.ldpreLeh p) s = .next t →
    exec .consLeh t = .next
      (if s.leh.cfg.seed.toNat < (rom p).modulus.toNat then
        { t with leh := { t.leh with x := s.leh.cfg.seed, valid := true }, rsp := some ⟨.ok, 0, 0⟩ }
       else { t with rsp := some ⟨.seedRange, 0, 0⟩ }))

/-! ## Construction -/

/-- R84, R204, R205: CONS of an engine whose checks all hold completes: OK, VALID.e is 1, no configuration is changed, and no
other engine is touched. If a check does not hold, the cause of the first one in the listed order is answered and nothing is
written. -/
def Obligations.ConsSucceedsExactlyWhenAllChecksHold : Prop :=
  ∀ (e : Engine) (s : State),
    ((∀ c ∈ s.checks e, c.1 = true) →
      ∃ t, exec (.cons e) s = .next t ∧ t.rsp = some ⟨.ok, 0, 0⟩ ∧ t.valid e = true ∧
        (∀ r, t.readCfg r = s.readCfg r) ∧ t.lfg.hlen = s.lfg.hlen ∧ t.lfg.seedHist = s.lfg.seedHist ∧
        (∀ e', e' ≠ e → t.sameEngine s e')) ∧
    (∀ (before : List Check) (cause : Status) (after : List Check),
      s.checks e = before ++ (false, cause) :: after → (∀ c ∈ before, c.1 = true) →
        exec (.cons e) s = .next { s with rsp := some ⟨cause, 0, 0⟩ })

/-- R115, R116, R205: CONS.LCG, with the conditions written out on numbers: `obr` has PRESENT in bit 0, START in bits 15:8, END
in bits 23:16. -/
def Obligations.ConsLcgChecksInOrder : Prop :=
  Instr.consLcg.word = 0x04000000#32 ∧
  ∀ s : State,
    let c := s.lcg.cfg
    let obr := c.obr.toNat
    let start := obr / 2 ^ 8 % 2 ^ 8
    let stop := obr / 2 ^ 16 % 2 ^ 8
    exec .consLcg s = .next
      (if ¬ c.mul.toNat < c.mod.toNat then { s with rsp := some ⟨.mulRange, 0, 0⟩ }
       else if ¬ c.inc.toNat < c.mod.toNat then { s with rsp := some ⟨.incRange, 0, 0⟩ }
       else if ¬ c.seed.toNat < c.mod.toNat then { s with rsp := some ⟨.seedRange, 0, 0⟩ }
       else if ¬ (obr / 2 % 2 ^ 7 = 0 ∧ obr / 2 ^ 24 = 0) then { s with rsp := some ⟨.obrInvalid, 0, 0⟩ }
       else if obr % 2 = 1 ∧ ¬ (start < stop ∧ start ≤ 63 ∧ stop ≤ 64) then { s with rsp := some ⟨.obrInvalid, 0, 0⟩ }
       else { s with lcg := { s.lcg with x := c.seed, valid := true }, rsp := some ⟨.ok, 0, 0⟩ })

/-- R130, R131, R205: CONS.LEH. -/
def Obligations.ConsLehChecksInOrder : Prop :=
  Instr.consLeh.word = 0x04100000#32 ∧
  ∀ s : State,
    let c := s.leh.cfg
    exec .consLeh s = .next
      (if ¬ c.mul.toNat < c.mod.toNat then { s with rsp := some ⟨.mulRange, 0, 0⟩ }
       else if ¬ c.seed.toNat < c.mod.toNat then { s with rsp := some ⟨.seedRange, 0, 0⟩ }
       else { s with leh := { s.leh with x := c.seed, valid := true }, rsp := some ⟨.ok, 0, 0⟩ })

/-- R143, R144, R205: CONS.LFG. On success H has k words, and H[i] is SEEDHIST[i]; SEEDHIST and HLEN are not changed. -/
def Obligations.ConsLfgChecksInOrder : Prop :=
  Instr.consLfg.word = 0x04200000#32 ∧
  ∀ s : State,
    let c := s.lfg.cfg
    ∃ h : List Word, h.length = c.k.toNat ∧ (∀ i, i < c.k.toNat → h[i]? = some (s.lfg.seedHist.read i)) ∧
    exec .consLfg s = .next
      (if ¬ (1 ≤ c.j.toNat ∧ c.j.toNat < c.k.toNat) then { s with rsp := some ⟨.lagWindow, 0, 0⟩ }
       else if ¬ s.lfg.hlen = c.k.toNat then { s with rsp := some ⟨.histLen, 0, 0⟩ }
       else if ¬ c.k.toNat ≤ s.params.kmax then { s with rsp := some ⟨.kRange, 0, 0⟩ }
       else if ¬ 1 ≤ c.mod.toNat then { s with rsp := some ⟨.modZero, 0, 0⟩ }
       else if ¬ c.op.toNat ≤ 3 then { s with rsp := some ⟨.fieldRange, 0, 0⟩ }
       else { s with lfg := { s.lfg with hist := h, valid := true }, rsp := some ⟨.ok, 0, 0⟩ })

/-- R160, R161, R205: CONS.LFSR, on the whole 64-bit registers. -/
def Obligations.ConsLfsrChecksInOrder : Prop :=
  Instr.consLfsr.word = 0x04300000#32 ∧
  ∀ s : State,
    let c := s.lfsr.cfg
    exec .consLfsr s = .next
      (if c.seed = 0 then { s with rsp := some ⟨.lfsrZeroSeed, 0, 0⟩ }
       else if ¬ c.seed.toNat < 2 ^ 32 then { s with rsp := some ⟨.fieldRange, 0, 0⟩ }
       else if ¬ c.mask.toNat < 2 ^ 32 then { s with rsp := some ⟨.fieldRange, 0, 0⟩ }
       else { s with lfsr := { s.lfsr with r := BitVec.ofNat 32 c.seed.toNat, valid := true }, rsp := some ⟨.ok, 0, 0⟩ })

/-- R170, R171, R205: CONS.MSQ. -/
def Obligations.ConsMsqChecksInOrder : Prop :=
  Instr.consMsq.word = 0x04400000#32 ∧
  ∀ s : State,
    let c := s.msq.cfg
    exec .consMsq s = .next
      (if ¬ c.width.toNat ≤ 1 then { s with rsp := some ⟨.fieldRange, 0, 0⟩ }
       else if ¬ c.digits.toNat ≤ (if c.width.toNat = 0 then 9 else 19) then { s with rsp := some ⟨.msqDigits, 0, 0⟩ }
       else if ¬ c.seed.toNat < 2 ^ (if c.width.toNat = 0 then 32 else 64) then { s with rsp := some ⟨.fieldRange, 0, 0⟩ }
       else { s with msq := { s.msq with x := c.seed, valid := true }, rsp := some ⟨.ok, 0, 0⟩ })

/-- R185, R186, R205: CONS.WH, on the whole 64-bit registers. -/
def Obligations.ConsWhChecksInOrder : Prop :=
  Instr.consWh.word = 0x04500000#32 ∧
  ∀ s : State,
    let c := s.wh.cfg
    exec .consWh s = .next
      (if (1 ≤ c.seed0.toNat ∧ c.seed0.toNat ≤ 30000) ∧ (1 ≤ c.seed1.toNat ∧ c.seed1.toNat ≤ 30000) ∧
          (1 ≤ c.seed2.toNat ∧ c.seed2.toNat ≤ 30000) then
        { s with
          wh := ⟨c, BitVec.ofNat 15 c.seed0.toNat, BitVec.ofNat 15 c.seed1.toNat, BitVec.ofNat 15 c.seed2.toNat, true⟩
          rsp := some ⟨.ok, 0, 0⟩ }
       else { s with rsp := some ⟨.whSeedRange, 0, 0⟩ })

/-- R84 corner case (d): what CONS answers right after reset, whatever the parameters are: LCG and LEH MUL_RANGE, LFG LAG_WINDOW,
LFSR LFSR_ZERO_SEED, WH WH_SEED_RANGE, and MSQ OK. -/
def Obligations.ConsRightAfterReset : Prop :=
  ∀ p : Params,
    exec .consLcg (State.resetOf p) = .next { State.resetOf p with rsp := some ⟨.mulRange, 0, 0⟩ } ∧
    exec .consLeh (State.resetOf p) = .next { State.resetOf p with rsp := some ⟨.mulRange, 0, 0⟩ } ∧
    exec .consLfg (State.resetOf p) = .next { State.resetOf p with rsp := some ⟨.lagWindow, 0, 0⟩ } ∧
    exec .consLfsr (State.resetOf p) = .next { State.resetOf p with rsp := some ⟨.lfsrZeroSeed, 0, 0⟩ } ∧
    exec .consWh (State.resetOf p) = .next { State.resetOf p with rsp := some ⟨.whSeedRange, 0, 0⟩ } ∧
    ∃ t, exec .consMsq (State.resetOf p) = .next t ∧ t.rsp = some ⟨.ok, 0, 0⟩ ∧ t.msq.valid = true ∧ t.msq.x = 0

/-! ## Advance -/

/-- R86: ADV of an engine that is not constructed is answered NOT_CONSTRUCTED, and nothing is written. -/
def Obligations.AdvOfAnUnconstructedEngineFails : Prop :=
  ∀ (e : Engine) (s : State), s.valid e = false →
    exec (.adv e) s = .next { s with rsp := some ⟨.notConstructed, 0, 0⟩ }

/-- R117, R118: ADV.LCG of a constructed engine. The new state is (a * x + c) mod m, exactly; the output is the new state, or its
bits from START up to but not including END, which are below 2^(END - START). Nothing else changes. That m is not 0 follows from
the invariant (R29). Not constructed, it is answered NOT_CONSTRUCTED, as is the ADV of each engine below. -/
def Obligations.AdvLcgMultipliesAddsAndExtracts : Prop :=
  Instr.advLcg.word = 0x05000000#32 ∧
  (∀ s : State, s.lcg.valid = false → exec .advLcg s = .next { s with rsp := some ⟨.notConstructed, 0, 0⟩ }) ∧
  ∀ s : State, s.lcg.valid = true → 1 ≤ s.lcg.cfg.mod.toNat →
    ∃ x' out : Word,
      exec .advLcg s = .next { s with lcg := { s.lcg with x := x' }, rsp := some ⟨.ok, out, 0⟩ } ∧
      x'.toNat = (s.lcg.cfg.mul.toNat * s.lcg.x.toNat + s.lcg.cfg.inc.toNat) % s.lcg.cfg.mod.toNat ∧
      let start := s.lcg.cfg.obr.toNat / 2 ^ 8 % 2 ^ 8
      let stop := s.lcg.cfg.obr.toNat / 2 ^ 16 % 2 ^ 8
      out.toNat = (if s.lcg.cfg.obr.toNat % 2 = 0 then x'.toNat else x'.toNat % 2 ^ stop / 2 ^ start) ∧
      (s.lcg.cfg.obr.toNat % 2 = 1 → start < stop → out.toNat < 2 ^ (stop - start))

/-- R132: ADV.LEH of a constructed engine. -/
def Obligations.AdvLehMultiplies : Prop :=
  Instr.advLeh.word = 0x05100000#32 ∧
  (∀ s : State, s.leh.valid = false → exec .advLeh s = .next { s with rsp := some ⟨.notConstructed, 0, 0⟩ }) ∧
  ∀ s : State, s.leh.valid = true → 1 ≤ s.leh.cfg.mod.toNat →
    ∃ x' : Word,
      exec .advLeh s = .next { s with leh := { s.leh with x := x' }, rsp := some ⟨.ok, x', 0⟩ } ∧
      x'.toNat = s.leh.cfg.mul.toNat * s.leh.x.toNat % s.leh.cfg.mod.toNat ∧
      (s.leh.x = 0 → x' = 0)

/-- R119: with increment 0 and no output range, the LCG engine computes what the LEH engine computes for the same modulus,
multiplier and seed: from CONS on, n ADV of each get the same responses. -/
def Obligations.LcgWithoutIncrementIsLehmer : Prop :=
  ∀ (s : State) (n : Nat),
    s.lcg.cfg.inc = 0 → s.lcg.cfg.obr.toNat % 2 = 0 → s.lcg.cfg.mod = s.leh.cfg.mod → s.lcg.cfg.mul = s.leh.cfg.mul →
    s.lcg.valid = true → s.leh.valid = true → s.lcg.x = s.leh.x →
      (responses (List.replicate n .advLcg) s).map Prod.snd = (responses (List.replicate n .advLeh) s).map Prod.snd

/-- R145, R146: ADV.LFG of a constructed engine: the operator on the words at the 1-based positions j and k of H, exactly, reduced
to the least non-negative residue; the oldest word is evicted and the new one appended; it is the output. Nothing else changes.
That the row of R29 holds follows from the invariant. -/
def Obligations.AdvLfgCombinesAndAppends : Prop :=
  Instr.advLfg.word = 0x05200000#32 ∧
  (∀ s : State, s.lfg.valid = false → exec .advLfg s = .next { s with rsp := some ⟨.notConstructed, 0, 0⟩ }) ∧
  ∀ (s : State) (u v : Word), s.lfg.valid = true → s.lfg.row s.params.kmax →
    s.lfg.hist[s.lfg.cfg.j.toNat - 1]? = some u → s.lfg.hist[s.lfg.cfg.k.toNat - 1]? = some v →
    ∃ next : Word,
      exec .advLfg s = .next { s with lfg := { s.lfg with hist := s.lfg.hist.drop 1 ++ [next] }, rsp := some ⟨.ok, next, 0⟩ } ∧
      (s.lfg.cfg.op.toNat = 0 → (next.toNat : Int) = ((u.toNat : Int) + v.toNat) % s.lfg.cfg.mod.toNat) ∧
      (s.lfg.cfg.op.toNat = 1 → (next.toNat : Int) = ((u.toNat : Int) - v.toNat) % s.lfg.cfg.mod.toNat) ∧
      (s.lfg.cfg.op.toNat = 1 → u.toNat < v.toNat →
        next.toNat = (s.lfg.cfg.mod.toNat - (v.toNat - u.toNat) % s.lfg.cfg.mod.toNat) % s.lfg.cfg.mod.toNat) ∧
      (s.lfg.cfg.op.toNat = 2 → (next.toNat : Int) = ((u.toNat : Int) * v.toNat) % s.lfg.cfg.mod.toNat) ∧
      (s.lfg.cfg.op.toNat = 3 → (next.toNat : Int) = ((u ^^^ v).toNat : Int) % s.lfg.cfg.mod.toNat)

/-- R20: after the first k advances every word of H is below the modulus. -/
def Obligations.AfterKAdvancesTheHistoryIsReduced : Prop :=
  ∀ s t : State, s.lfg.valid = true → s.lfg.row s.params.kmax →
    runAll (List.replicate s.lfg.cfg.k.toNat .advLfg) s = some t →
      t.lfg.hist.length = s.lfg.cfg.k.toNat ∧ ∀ w ∈ t.lfg.hist, w.toNat < s.lfg.cfg.mod.toNat

/-- R21, R43, R145: the ring with a head pointer computes what the logical list computes: the same words after loading, the same
output and the same words after an advance, with HEAD kept in [0, k-1]. -/
def Obligations.TheRingRefinesTheHistory : Prop :=
  (∀ (seed : WordMem) (k : Nat), 1 ≤ k → (HistRing.load seed k).wf = true ∧ (HistRing.load seed k).logical = seed.take k) ∧
  ∀ (c : LfgCfg) (r : HistRing), r.wf = true → 1 ≤ c.j.toNat → c.j.toNat < c.k.toNat → c.k.toNat = r.words.length →
    (r.advance c).1.wf = true ∧ (r.advance c).2 = lfgNext c r.logical ∧
      (r.advance c).1.logical = histAppend r.logical (r.advance c).2

/-- R140: HPUSH. While there is room the word is stored at index HLEN, every other word of SEEDHIST stays, and HLEN goes up by
one; with no room the word is discarded and HLEN is KMAX + 1. VALID.LFG is cleared, the response is OK with the new HLEN as 64
bits, and the rest of the state stays. That the new HLEN is answered modulo 2^64 whatever KMAX is, is the model's choice (log 10,
DEDUCED): the spec says nothing where KMAX + 1 does not fit into 64 bits. SEEDHIST's canonical form is part of the invariant. -/
def Obligations.HpushAppendsOrSaturates : Prop :=
  (∀ v : Word, (encode (.hpush v)).word = 0x06200000#32) ∧
  ∀ (v : Word) (s : State), s.lfg.seedHist.wf = true →
    ∃ m : WordMem, ∃ n : Nat,
      exec (.hpush v) s = .next { s with
        lfg := { s.lfg with seedHist := m, hlen := n, valid := false }, rsp := some ⟨.ok, BitVec.ofNat 64 n, 0⟩ } ∧
      (s.lfg.hlen < s.params.kmax → n = s.lfg.hlen + 1 ∧ m.read s.lfg.hlen = v ∧
        ∀ i, i ≠ s.lfg.hlen → m.read i = s.lfg.seedHist.read i) ∧
      (s.params.kmax ≤ s.lfg.hlen → n = s.params.kmax + 1 ∧ ∀ i, m.read i = s.lfg.seedHist.read i)

/-- R141: HCLR makes HLEN 0 and clears VALID.LFG; SEEDHIST's words and everything else stay. -/
def Obligations.HclrEmptiesTheCount : Prop :=
  Instr.hclr.word = 0x07200000#32 ∧
  ∀ s : State, exec .hclr s = .next { s with lfg := { s.lfg with hlen := 0, valid := false }, rsp := some ⟨.ok, 0, 0⟩ }

/-- R69, R140, R144: HLOAD of up to KMAX words, then CONS.LFG with K the number of words and the other parameters in range:
the engine is constructed with the history the words in the order pushed, the oldest first. -/
def Obligations.HloadThenConsGivesTheHistory : Prop :=
  ∀ (vs : List Word) (s t : State) (is : List Instr), s.lfg.seedHist.wf = true → vs.length ≤ s.params.kmax →
    (Pseudo.hload vs).expand = some is → runAll is s = some t →
      t.lfg.hlen = vs.length ∧ t.lfg.cfg = s.lfg.cfg ∧
      (s.lfg.cfg.k.toNat = vs.length → 1 ≤ s.lfg.cfg.j.toNat → s.lfg.cfg.j.toNat < vs.length →
        1 ≤ s.lfg.cfg.mod.toNat → s.lfg.cfg.op.toNat ≤ 3 →
        exec .consLfg t = .next { t with lfg := { t.lfg with hist := vs, valid := true }, rsp := some ⟨.ok, 0, 0⟩ })

/-- R162: ADV.LFSR of a constructed engine: the register shifted right by one, xored with the mask's low 32 bits if it was odd; the
output is the new register. Nothing else changes. -/
def Obligations.AdvLfsrShiftsAndXors : Prop :=
  Instr.advLfsr.word = 0x05300000#32 ∧
  (∀ s : State, s.lfsr.valid = false → exec .advLfsr s = .next { s with rsp := some ⟨.notConstructed, 0, 0⟩ }) ∧
  ∀ s : State, s.lfsr.valid = true →
    ∃ r' : Reg32, ∃ out : Word,
      exec .advLfsr s = .next { s with lfsr := { s.lfsr with r := r' }, rsp := some ⟨.ok, out, 0⟩ } ∧
      r'.toNat = (if s.lfsr.r.toNat % 2 = 1 then (s.lfsr.r.toNat / 2) ^^^ (s.lfsr.cfg.mask.toNat % 2 ^ 32)
        else s.lfsr.r.toNat / 2) ∧
      out.toNat = r'.toNat

/-- R162 corner cases (a), (b): zero is a fixed point, and a non-zero register goes to zero exactly when it is odd and its upper 31
bits are the mask's low 32 bits. -/
def Obligations.WhenTheLfsrReachesZero : Prop :=
  ∀ (c : LfsrCfg) (r : Reg32),
    lfsrNext c 0 = 0 ∧
    (r ≠ 0 → (lfsrNext c r = 0 ↔ r.toNat % 2 = 1 ∧ r.toNat / 2 = c.mask.toNat % 2 ^ 32))

/-- R172, R173: ADV.MSQ of a constructed engine: the n decimal digits in the middle of the exact square, rendered with at least
2n digits, the extra digit dropped on the right; 0 for n = 0. `l` is the number of digits of the square. -/
def Obligations.AdvMsqTakesTheMiddleDigits : Prop :=
  Instr.advMsq.word = 0x05400000#32 ∧
  (∀ s : State, s.msq.valid = false → exec .advMsq s = .next { s with rsp := some ⟨.notConstructed, 0, 0⟩ }) ∧
  ∀ (s : State) (l : Nat), s.msq.valid = true → s.msq.cfg.digits.toNat ≤ 19 →
    let sq := s.msq.x.toNat * s.msq.x.toNat
    let n := s.msq.cfg.digits.toNat
    (sq = 0 ∧ l = 1 ∨ 10 ^ (l - 1) ≤ sq ∧ sq < 10 ^ l ∧ 1 ≤ l) →
    ∃ y : Word,
      exec .advMsq s = .next { s with msq := { s.msq with x := y }, rsp := some ⟨.ok, y, 0⟩ } ∧
      y.toNat = (if n = 0 then 0
        else sq / 10 ^ (max l (2 * n) - n - (max l (2 * n) - n) / 2) % 10 ^ n) ∧
      y.toNat < 10 ^ n

/-- R173 in words: write sq in decimal, put zeros in front up to 2n digits, take the n digits from position floor((Wd - n)/2) on
the left, and read them as a number. `Nat.digits 10` gives the digits, the last one first. -/
def Obligations.MidReadsTheMiddleOfTheRenderedSquare : Prop :=
  ∀ sq n : Nat, 1 ≤ n →
    let ds := if sq = 0 then [0] else (Nat.digits 10 sq).reverse
    let rendered := List.replicate (2 * n - ds.length) 0 ++ ds
    let lead := (rendered.length - n) / 2
    mid sq n = ((rendered.drop lead).take n).foldl (fun a d => 10 * a + d) 0

/-- R174: the steady-state form of the middle-square step, for a seed below 10^n, as every seed is after one ADV. -/
def Obligations.TheSteadyStateMiddleSquare : Prop :=
  (∀ s t : State, s.msq.valid = true → s.msq.cfg.digits.toNat ≤ 19 → exec .advMsq s = .next t →
    t.msq.x.toNat < 10 ^ t.msq.cfg.digits.toNat) ∧
  ∀ x n : Nat, 1 ≤ n → x < 10 ^ n → x * x < 10 ^ (2 * n) ∧ mid (x * x) n = x * x / 10 ^ ((n + 1) / 2) % 10 ^ n

/-- R187, R188, R189: ADV.WH of a constructed engine: each register is multiplied and reduced, exactly; the response carries NUM of
the registers before the transition on `rsp_aux`, and WH_FLOAT of them on `rsp_data`. Nothing else changes. From registers in the
ranges of R28, no register becomes 0 or reaches its modulus. -/
def Obligations.AdvWhAnswersBeforeItMoves : Prop :=
  Instr.advWh.word = 0x05500000#32 ∧
  (∀ s : State, s.wh.valid = false → exec .advWh s = .next { s with rsp := some ⟨.notConstructed, 0, 0⟩ }) ∧
  ∀ s : State, s.wh.valid = true →
    ∃ s0' s1' s2' : Reg15, ∃ aux : Word,
      exec .advWh s = .next { s with
        wh := { s.wh with s0 := s0', s1 := s1', s2 := s2' },
        rsp := some ⟨.ok, whFloat s.params.whFloat s.wh.s0 s.wh.s1 s.wh.s2, aux⟩ } ∧
      s0'.toNat = 171 * s.wh.s0.toNat % 30269 ∧ s1'.toNat = 172 * s.wh.s1.toNat % 30307 ∧
      s2'.toNat = 170 * s.wh.s2.toNat % 30323 ∧
      aux.toNat = (s.wh.s0.toNat * 918999161 + s.wh.s1.toNat * 917846887 + s.wh.s2.toNat * 917362583) % 27817185604309 ∧
      (s.wh.row → (1 ≤ s0'.toNat ∧ s0'.toNat < 30269) ∧ (1 ≤ s1'.toNat ∧ s1'.toNat < 30307) ∧ (1 ≤ s2'.toNat ∧ s2'.toNat < 30323))

/-- R189: NUM over DEN is the exact value of the source's formula, `(s0/30269 + s1/30307 + s2/30323) mod 1.0`, NUM is below DEN, and
a successful ADV.WH presents NUM of the registers before it on `rsp_aux`. -/
def Obligations.TheNumeratorIsTheExactFraction : Prop :=
  (∀ s t : State, s.wh.valid = true → exec .advWh s = .next t →
    ∃ r, t.rsp = some r ∧ r.aux.toNat = whNum s.wh.s0 s.wh.s1 s.wh.s2) ∧
  ∀ a b c : Reg15,
    whNum a b c < 30269 * 30307 * 30323 ∧
    whNum a b c = (a.toNat * (30307 * 30323) + b.toNat * (30269 * 30323) + c.toNat * (30269 * 30307)) % (30269 * 30307 * 30323) ∧
    (whNum a b c : ℚ) / 27817185604309 =
      Int.fract ((a.toNat : ℚ) / 30269 + (b.toNat : ℚ) / 30307 + (c.toNat : ℚ) / 30323)

/-- R190, the default WH_FLOAT; what binary64 arithmetic computes is the model's, PRESUMED (log 12). The operations: each division
is correctly rounded (for a 15-bit register that is not 0 and a modulus m of the engine, the result is a 53-bit significand q over
a power of two, and no other q' is nearer to the quotient), an addition is the exact sum rounded to nearest even, the remainder by
1.0 is exact. The composition: the output is the pattern of the fractional part of t, where t comes from three rounded divisions
and two rounded additions, left to right; it is 0 or a normal number. The bound: it is below the pattern of 1.0,
0x3FF0000000000000, so its sign is 0. -/
def Obligations.TheDefaultFloatRoundsAndIsBelowOne : Prop :=
  (∀ (a : Reg15) (m : Nat), (m = 30269 ∨ m = 30307 ∨ m = 30323) → a ≠ 0 →
    let q := (fdiv a.toNat m).num
    let p := (2 : ℚ) ^ (fdiv a.toNat m).sh
    (2 ^ 52 ≤ q ∧ q ≤ 2 ^ 53) ∧
      ∀ q' : Nat, |(q : ℚ) / p - (a.toNat : ℚ) / m| ≤ |(q' : ℚ) / p - (a.toNat : ℚ) / m|) ∧
  (∀ x y : Scaled, 1 / 2 ^ 64 ≤ x.value + y.value → x.value + y.value < 2 ^ 52 →
    roundsTo (x.value + y.value) (fadd x y).value) ∧
  (∀ x : Scaled, (fmod1 x).value = Int.fract x.value) ∧
  (∀ a b c : Reg15, ∃ d0 d1 d2 u t : ℚ,
    roundsTo ((a.toNat : ℚ) / 30269) d0 ∧ roundsTo ((b.toNat : ℚ) / 30307) d1 ∧ roundsTo ((c.toNat : ℚ) / 30323) d2 ∧
      roundsTo (d0 + d1) u ∧ roundsTo (u + d2) t ∧
      binary64Value (whFloat .binary64 a b c) = Int.fract t ∧
      (whFloat .binary64 a b c = 0 ∨ 2 ^ 52 ≤ (whFloat .binary64 a b c).toNat)) ∧
  ∀ a b c : Reg15, (whFloat .binary64 a b c).toNat < 0x3FF0000000000000

/-! ## The ports, clock by clock: R60, R230, R231, R240 -/

/-- R60, R240: a command accepted by a ready port is answered after the latency it has, with the response and the state of the
command-level step, whatever the host does at the pins meanwhile short of reset; until then the port is not ready and presents
no response; the response is presented for one clock. That the port is not ready in the clock of the response and is ready in
the clock after it is the model's choice (log 13, DESIGN CHOICE; R60 says that it may be). -/
def Obligations.AnAcceptedCommandIsAnswered : Prop :=
  ∀ (lat : Nat → Nat) (p : Port) (i : Pins) (ins : List Pins),
    p.ready = true → i.rst = false → i.cmdValid = true → (∀ j ∈ ins, j.rst = false) → ins.length = lat p.accepted + 1 →
      (∀ k, k ≤ lat p.accepted → ∀ j : Pins,
        (((p.clock lat i).clocks lat (ins.take k)).outputs j) = ⟨false, none⟩) ∧
      ∃ t r, step { p.core with host := [.command i.command] } = .next t ∧ t.rsp = some r ∧
        ((p.clock lat i).clocks lat ins).core = t ∧
        ∀ j j' : Pins, j.rst = false → j'.rst = false →
          ((p.clock lat i).clocks lat ins).outputs j = ⟨false, some r⟩ ∧
          (((p.clock lat i).clocks lat ins).clock lat j).outputs j' = ⟨true, none⟩

/-- R230, R231: reset at any edge leaves every VALID, every configuration register and HLEN 0, no response and nothing in flight,
whatever was in flight; while it is asserted the port is not ready and presents no response. The last clause, that the whole
state is that of `State.resetOf`, also fixes the state registers, SEEDHIST and HIST, which R30 leaves unspecified: their values
there are the model's choice (logs 3, 4, 5, DESIGN CHOICE). -/
def Obligations.ResetAbandonsTheCommandInFlight : Prop :=
  ∀ (lat : Nat → Nat) (p : Port) (i : Pins), i.rst = true →
    p.outputs i = ⟨false, none⟩ ∧ (p.clock lat i).inFlight = none ∧
      (∀ e, (p.clock lat i).core.valid e = false) ∧ (∀ r, (p.clock lat i).core.readCfg r = 0) ∧
      (p.clock lat i).core.lfg.hlen = 0 ∧ (p.clock lat i).core.rsp = none ∧
      (p.clock lat i).core.params = p.core.params ∧
      (p.clock lat i).core = State.resetOf p.core.params

/-- R2, R231, R240: every clock edge is one of five, and the guards leave no other. Reset takes the command-level step of a reset.
Without reset: a command in flight with clocks left leaves the architectural state and has one clock less; one with none left
takes the command-level step of that command; with nothing in flight and a response presented, the edge takes the step for
nothing presented (log 7, log 13); with neither, it leaves the architectural state, and a command at the pins is in flight. -/
def Obligations.ClockEdgesRunTheCommandLevelStep : Prop :=
  ∀ (lat : Nat → Nat) (p : Port) (i : Pins),
    (i.rst = false ∧ (∃ c n, p.inFlight = some (c, n + 1) ∧ (p.clock lat i).inFlight = some (c, n)) ∧
      (p.clock lat i).core = p.core) ∨
    (i.rst = false ∧ p.inFlight = none ∧ p.core.rsp = none ∧
      (p.clock lat i).inFlight = (if i.cmdValid then some (i.command, lat p.accepted) else none) ∧
      (p.clock lat i).core = p.core) ∨
    (i.rst = true ∧ step { p.core with host := [.reset] } = .next (p.clock lat i).core) ∨
    (i.rst = false ∧ ∃ c, p.inFlight = some (c, 0) ∧ (p.clock lat i).inFlight = none ∧
      step { p.core with host := [.command c] } = .next (p.clock lat i).core) ∨
    (i.rst = false ∧ p.inFlight = none ∧ p.core.rsp ≠ none ∧ (p.clock lat i).inFlight = none ∧
      step { p.core with host := [] } = .next (p.clock lat i).core)
end

