-- ==== Sys2Proof/Laws/State.lean ====
section
/-! SUPPORT. The fields of a state after each named update: one lemma per field per update, true by unfolding once. -/

namespace Sys2Proof.Machine

/-! ## Answering -/

@[simp] theorem State.respond_lcg (s : State) (r : Response) : (s.respond r).lcg = s.lcg := rfl
@[simp] theorem State.respond_leh (s : State) (r : Response) : (s.respond r).leh = s.leh := rfl
@[simp] theorem State.respond_lfg (s : State) (r : Response) : (s.respond r).lfg = s.lfg := rfl
@[simp] theorem State.respond_lfsr (s : State) (r : Response) : (s.respond r).lfsr = s.lfsr := rfl
@[simp] theorem State.respond_msq (s : State) (r : Response) : (s.respond r).msq = s.msq := rfl
@[simp] theorem State.respond_wh (s : State) (r : Response) : (s.respond r).wh = s.wh := rfl
@[simp] theorem State.respond_rsp (s : State) (r : Response) : (s.respond r).rsp = some r := rfl
@[simp] theorem State.respond_host (s : State) (r : Response) : (s.respond r).host = s.host := rfl
@[simp] theorem State.respond_params (s : State) (r : Response) : (s.respond r).params = s.params := rfl

@[simp] theorem State.ok_lcg (s : State) (d a : Word) : (s.ok d a).lcg = s.lcg := rfl
@[simp] theorem State.ok_leh (s : State) (d a : Word) : (s.ok d a).leh = s.leh := rfl
@[simp] theorem State.ok_lfg (s : State) (d a : Word) : (s.ok d a).lfg = s.lfg := rfl
@[simp] theorem State.ok_lfsr (s : State) (d a : Word) : (s.ok d a).lfsr = s.lfsr := rfl
@[simp] theorem State.ok_msq (s : State) (d a : Word) : (s.ok d a).msq = s.msq := rfl
@[simp] theorem State.ok_wh (s : State) (d a : Word) : (s.ok d a).wh = s.wh := rfl
@[simp] theorem State.ok_rsp (s : State) (d a : Word) : (s.ok d a).rsp = some ⟨.ok, d, a⟩ := rfl
@[simp] theorem State.ok_host (s : State) (d a : Word) : (s.ok d a).host = s.host := rfl
@[simp] theorem State.ok_params (s : State) (d a : Word) : (s.ok d a).params = s.params := rfl

@[simp] theorem State.fail_lcg (s : State) (c : Status) : (s.fail c).lcg = s.lcg := rfl
@[simp] theorem State.fail_leh (s : State) (c : Status) : (s.fail c).leh = s.leh := rfl
@[simp] theorem State.fail_lfg (s : State) (c : Status) : (s.fail c).lfg = s.lfg := rfl
@[simp] theorem State.fail_lfsr (s : State) (c : Status) : (s.fail c).lfsr = s.lfsr := rfl
@[simp] theorem State.fail_msq (s : State) (c : Status) : (s.fail c).msq = s.msq := rfl
@[simp] theorem State.fail_wh (s : State) (c : Status) : (s.fail c).wh = s.wh := rfl
@[simp] theorem State.fail_rsp (s : State) (c : Status) : (s.fail c).rsp = some ⟨c, 0, 0⟩ := rfl
@[simp] theorem State.fail_host (s : State) (c : Status) : (s.fail c).host = s.host := rfl
@[simp] theorem State.fail_params (s : State) (c : Status) : (s.fail c).params = s.params := rfl

/-! ## The host's events -/

@[simp] theorem State.withHost_lcg (s : State) (es : List HostEvent) : (s.withHost es).lcg = s.lcg := rfl
@[simp] theorem State.withHost_leh (s : State) (es : List HostEvent) : (s.withHost es).leh = s.leh := rfl
@[simp] theorem State.withHost_lfg (s : State) (es : List HostEvent) : (s.withHost es).lfg = s.lfg := rfl
@[simp] theorem State.withHost_lfsr (s : State) (es : List HostEvent) : (s.withHost es).lfsr = s.lfsr := rfl
@[simp] theorem State.withHost_msq (s : State) (es : List HostEvent) : (s.withHost es).msq = s.msq := rfl
@[simp] theorem State.withHost_wh (s : State) (es : List HostEvent) : (s.withHost es).wh = s.wh := rfl
@[simp] theorem State.withHost_rsp (s : State) (es : List HostEvent) : (s.withHost es).rsp = s.rsp := rfl
@[simp] theorem State.withHost_host (s : State) (es : List HostEvent) : (s.withHost es).host = es := rfl
@[simp] theorem State.withHost_params (s : State) (es : List HostEvent) : (s.withHost es).params = s.params := rfl

@[simp] theorem idle_lcg (s : State) : (idle s).lcg = s.lcg := rfl
@[simp] theorem idle_leh (s : State) : (idle s).leh = s.leh := rfl
@[simp] theorem idle_lfg (s : State) : (idle s).lfg = s.lfg := rfl
@[simp] theorem idle_lfsr (s : State) : (idle s).lfsr = s.lfsr := rfl
@[simp] theorem idle_msq (s : State) : (idle s).msq = s.msq := rfl
@[simp] theorem idle_wh (s : State) : (idle s).wh = s.wh := rfl
@[simp] theorem idle_rsp (s : State) : (idle s).rsp = none := rfl
@[simp] theorem idle_host (s : State) : (idle s).host = s.host := rfl
@[simp] theorem idle_params (s : State) : (idle s).params = s.params := rfl

@[simp] theorem resetEvent_lcg (s : State) : (resetEvent s).lcg = (State.resetOf s.params).lcg := rfl
@[simp] theorem resetEvent_leh (s : State) : (resetEvent s).leh = (State.resetOf s.params).leh := rfl
@[simp] theorem resetEvent_lfg (s : State) : (resetEvent s).lfg = (State.resetOf s.params).lfg := rfl
@[simp] theorem resetEvent_lfsr (s : State) : (resetEvent s).lfsr = (State.resetOf s.params).lfsr := rfl
@[simp] theorem resetEvent_msq (s : State) : (resetEvent s).msq = (State.resetOf s.params).msq := rfl
@[simp] theorem resetEvent_wh (s : State) : (resetEvent s).wh = (State.resetOf s.params).wh := rfl
@[simp] theorem resetEvent_rsp (s : State) : (resetEvent s).rsp = none := rfl
@[simp] theorem resetEvent_host (s : State) : (resetEvent s).host = s.host := rfl
@[simp] theorem resetEvent_params (s : State) : (resetEvent s).params = s.params := rfl

/-! ## VALID flags and configuration cells, of any engine -/

@[simp] theorem State.valid_respond (s : State) (r : Response) (e : Engine) : (s.respond r).valid e = s.valid e := by
  cases e <;> rfl

@[simp] theorem State.valid_ok (s : State) (d a : Word) (e : Engine) : (s.ok d a).valid e = s.valid e := by
  cases e <;> rfl

@[simp] theorem State.valid_fail (s : State) (c : Status) (e : Engine) : (s.fail c).valid e = s.valid e := by
  cases e <;> rfl

@[simp] theorem State.valid_withHost (s : State) (es : List HostEvent) (e : Engine) : (s.withHost es).valid e = s.valid e := by
  cases e <;> rfl

@[simp] theorem State.readCfg_respond (s : State) (r : Response) (c : CfgReg) : (s.respond r).readCfg c = s.readCfg c := by
  rcases c with c | c | c | c | c | c <;> cases c <;> rfl

@[simp] theorem State.readCfg_ok (s : State) (d a : Word) (c : CfgReg) : (s.ok d a).readCfg c = s.readCfg c :=
  State.readCfg_respond s _ c

@[simp] theorem State.readCfg_fail (s : State) (st : Status) (c : CfgReg) : (s.fail st).readCfg c = s.readCfg c :=
  State.readCfg_respond s _ c

/-- Clearing a VALID flag clears that one and no other. -/
theorem State.valid_clearValid (s : State) (e e' : Engine) :
    (s.clearValid e).valid e' = if e' = e then false else s.valid e' := by
  cases e <;> cases e' <;> rfl

/-- Clearing a VALID flag leaves every configuration cell. -/
@[simp] theorem State.readCfg_clearValid (s : State) (e : Engine) (c : CfgReg) : (s.clearValid e).readCfg c = s.readCfg c := by
  cases e <;> rcases c with c | c | c | c | c | c <;> cases c <;> rfl

@[simp] theorem State.clearValid_host (s : State) (e : Engine) : (s.clearValid e).host = s.host := by cases e <;> rfl
@[simp] theorem State.clearValid_params (s : State) (e : Engine) : (s.clearValid e).params = s.params := by cases e <;> rfl
@[simp] theorem State.clearValid_rsp (s : State) (e : Engine) : (s.clearValid e).rsp = s.rsp := by cases e <;> rfl
@[simp] theorem State.clearValid_hlen (s : State) (e : Engine) : (s.clearValid e).lfg.hlen = s.lfg.hlen := by cases e <;> rfl
@[simp] theorem State.clearValid_seedHist (s : State) (e : Engine) :
    (s.clearValid e).lfg.seedHist = s.lfg.seedHist := by cases e <;> rfl

@[simp] theorem State.writeCfg_host (s : State) (v : Word) (r : CfgReg) : (s.writeCfg v r).host = s.host := by
  rcases r with r | r | r | r | r | r <;> cases r <;> rfl
@[simp] theorem State.writeCfg_params (s : State) (v : Word) (r : CfgReg) : (s.writeCfg v r).params = s.params := by
  rcases r with r | r | r | r | r | r <;> cases r <;> rfl
@[simp] theorem State.writeCfg_rsp (s : State) (v : Word) (r : CfgReg) : (s.writeCfg v r).rsp = s.rsp := by
  rcases r with r | r | r | r | r | r <;> cases r <;> rfl
@[simp] theorem State.writeCfg_hlen (s : State) (v : Word) (r : CfgReg) : (s.writeCfg v r).lfg.hlen = s.lfg.hlen := by
  rcases r with r | r | r | r | r | r <;> cases r <;> rfl
@[simp] theorem State.writeCfg_seedHist (s : State) (v : Word) (r : CfgReg) :
    (s.writeCfg v r).lfg.seedHist = s.lfg.seedHist := by
  rcases r with r | r | r | r | r | r <;> cases r <;> rfl
@[simp] theorem State.valid_writeCfg (s : State) (v : Word) (r : CfgReg) (e : Engine) :
    (s.writeCfg v r).valid e = s.valid e := by
  rcases r with r | r | r | r | r | r <;> cases r <;> cases e <;> rfl

/-- A writable register reads the value written to it. -/
theorem State.readCfg_writeCfg_same (s : State) (v : Word) (r : CfgReg) (h : r.writable = true) :
    (s.writeCfg v r).readCfg r = v := by
  rcases r with r | r | r | r | r | r <;> cases r <;> first | rfl | cases h

/-- Writing one register leaves every other cell. -/
theorem State.readCfg_writeCfg_other (s : State) (v : Word) (r r' : CfgReg) (h : r' ≠ r) :
    (s.writeCfg v r).readCfg r' = s.readCfg r' := by
  rcases r with r | r | r | r | r | r <;> cases r <;> rcases r' with r' | r' | r' | r' | r' | r' <;> cases r' <;>
    first | rfl | exact absurd rfl h

end Sys2Proof.Machine
end

