-- ==== Sys2Proof/Laws/Ops.lean ====
section
/-! SUPPORT. What the shared operations can do, said once: the word memory, checks, and the frames of CONS and ADV. -/

namespace Sys2Proof.Machine

/-! ## The word memory -/

theorem WordMem.wf_iff (m : WordMem) :
    m.wf = true ↔ m.Pairwise (fun a b => a.1 < b.1) ∧ ∀ a ∈ m, a.2 ≠ WordMem.unlisted := by
  simp [WordMem.wf]

theorem WordMem.wf_nil : WordMem.wf [] = true := rfl

theorem WordMem.wf_cons (a : Nat × Word) (m : WordMem) :
    WordMem.wf (a :: m) = true ↔
      (∀ b ∈ m, a.1 < b.1) ∧ a.2 ≠ WordMem.unlisted ∧ WordMem.wf m = true := by
  rw [WordMem.wf_iff, WordMem.wf_iff]
  simp only [List.pairwise_cons, List.mem_cons, forall_eq_or_imp]
  tauto

/-- An index below every listed one reads as unlisted. -/
theorem WordMem.read_of_lt (m : WordMem) (i : Nat) (h : ∀ a ∈ m, i < a.1) : m.read i = WordMem.unlisted := by
  induction m with
  | nil => rfl
  | cons a m ih =>
    have ha : a.1 ≠ i := Nat.ne_of_gt (h a (by simp))
    simp only [WordMem.read, if_neg ha]
    exact ih (fun b hb => h b (by simp [hb]))

theorem WordMem.mem_consEntry {i : Nat} {v : Word} {m : WordMem} {a : Nat × Word}
    (h : a ∈ WordMem.consEntry i v m) : a = (i, v) ∨ a ∈ m := by
  unfold WordMem.consEntry at h
  split at h
  · exact .inr h
  · simpa using h

/-- Every entry after a write is the one written or was there. -/
theorem WordMem.mem_write {m : WordMem} {i : Nat} {v : Word} {a : Nat × Word} (h : a ∈ m.write i v) :
    a = (i, v) ∨ a ∈ m := by
  induction m with
  | nil => simpa using WordMem.mem_consEntry h
  | cons b m ih =>
    simp only [WordMem.write] at h
    split at h
    · exact WordMem.mem_consEntry h
    · split at h
      · rcases WordMem.mem_consEntry h with h | h
        · exact .inl h
        · exact .inr (by simp [h])
      · rcases List.mem_cons.1 h with h | h
        · exact .inr (by simp [h])
        · rcases ih h with h | h
          · exact .inl h
          · exact .inr (by simp [h])

theorem WordMem.wf_consEntry (i : Nat) (v : Word) (m : WordMem) (hm : m.wf = true) (h : ∀ a ∈ m, i < a.1) :
    WordMem.wf (WordMem.consEntry i v m) = true := by
  unfold WordMem.consEntry
  split
  · exact hm
  · exact (WordMem.wf_cons _ _).2 ⟨h, ‹_›, hm⟩

/-- A write keeps the canonical form. -/
theorem WordMem.wf_write (m : WordMem) (i : Nat) (v : Word) (hm : m.wf = true) : (m.write i v).wf = true := by
  induction m with
  | nil => exact WordMem.wf_consEntry i v [] rfl (by simp)
  | cons b m ih =>
    obtain ⟨hlt, hne, hwf⟩ := (WordMem.wf_cons _ _).1 hm
    simp only [WordMem.write]
    split
    · rename_i hi
      refine WordMem.wf_consEntry i v _ hm (fun a ha => ?_)
      rcases List.mem_cons.1 ha with rfl | ha
      · exact hi
      · exact hi.trans (hlt a ha)
    · split
      · rename_i hi
        exact WordMem.wf_consEntry i v _ hwf (fun a ha => by simpa [hi] using hlt a ha)
      · refine (WordMem.wf_cons _ _).2 ⟨fun a ha => ?_, hne, ih hwf⟩
        rcases WordMem.mem_write ha with rfl | ha
        · simp only; omega
        · exact hlt a ha

theorem WordMem.read_consEntry_same (i : Nat) (v : Word) (m : WordMem) (h : ∀ a ∈ m, i < a.1) :
    (WordMem.consEntry i v m).read i = v := by
  unfold WordMem.consEntry
  split
  · rename_i hv
    rw [WordMem.read_of_lt m i h, hv]
  · simp [WordMem.read]

theorem WordMem.read_consEntry_other (i j : Nat) (v : Word) (m : WordMem) (h : j ≠ i) :
    (WordMem.consEntry i v m).read j = m.read j := by
  unfold WordMem.consEntry
  split
  · rfl
  · simp [WordMem.read, h.symm]

/-- Read after write, the same index. -/
theorem WordMem.read_write_same (m : WordMem) (i : Nat) (v : Word) (hm : m.wf = true) : (m.write i v).read i = v := by
  induction m with
  | nil => exact WordMem.read_consEntry_same i v [] (by simp)
  | cons b m ih =>
    obtain ⟨hlt, _, hwf⟩ := (WordMem.wf_cons _ _).1 hm
    simp only [WordMem.write]
    split
    · rename_i hi
      refine WordMem.read_consEntry_same i v _ (fun a ha => ?_)
      rcases List.mem_cons.1 ha with rfl | ha
      · exact hi
      · exact hi.trans (hlt a ha)
    · split
      · rename_i hi
        exact WordMem.read_consEntry_same i v m (fun a ha => by simpa [hi] using hlt a ha)
      · rename_i hi
        have : b.1 ≠ i := fun h => hi h.symm
        simpa [WordMem.read, this] using ih hwf

/-- Read after write, another index. -/
theorem WordMem.read_write_other (m : WordMem) (i j : Nat) (v : Word) (h : j ≠ i) : (m.write i v).read j = m.read j := by
  induction m with
  | nil => exact WordMem.read_consEntry_other i j v [] h
  | cons b m ih =>
    simp only [WordMem.write]
    split
    · exact WordMem.read_consEntry_other i j v _ h
    · split
      · rename_i hi
        rw [WordMem.read_consEntry_other i j v m h]
        have : b.1 ≠ j := fun h' => h (by omega)
        simp [WordMem.read, this]
      · simp only [WordMem.read]
        split
        · rfl
        · exact ih

@[simp] theorem WordMem.take_length (m : WordMem) (k : Nat) : (m.take k).length = k := by simp [WordMem.take]

theorem WordMem.take_get (m : WordMem) (k i : Nat) (h : i < k) : (m.take k)[i]? = some (m.read i) := by
  simp [WordMem.take, h]

/-! ## Checks -/

/-- No check fails exactly when every condition holds. -/
theorem firstFailing_eq_none (cs : List Check) : firstFailing cs = none ↔ ∀ c ∈ cs, c.1 = true := by
  induction cs with
  | nil => simp [firstFailing]
  | cons c cs ih =>
    obtain ⟨ok, cause⟩ := c
    cases ok <;> simp [firstFailing, ih]

/-- Checks that hold are passed over. -/
theorem firstFailing_append (before after : List Check) (h : ∀ c ∈ before, c.1 = true) :
    firstFailing (before ++ after) = firstFailing after := by
  induction before with
  | nil => rfl
  | cons c cs ih =>
    obtain ⟨ok, cause⟩ := c
    have hok : ok = true := h (ok, cause) (by simp)
    subst hok
    simpa [firstFailing] using ih (fun c hc => h c (by simp [hc]))

/-! ## The frames: what an answer can be -/

theorem complete_next {s t : State} {d : Word} (h : complete s d = .next t) : t = s.ok d 0 := by
  simpa [complete] using h.symm

theorem illegal_next {s t : State} (h : illegal s = .next t) : t = s.fail .illegalCmd := by
  simpa [illegal] using h.symm

/-- CONS answers the first cause and writes nothing, or OK with the built state (R84). -/
theorem construct_next {cs : List Check} {built s t : State} (h : construct cs built s = .next t) :
    (∃ cause, firstFailing cs = some cause ∧ t = s.fail cause) ∨ (firstFailing cs = none ∧ t = built.ok 0 0) := by
  unfold construct at h
  split at h <;> simp_all

/-- ADV answers NOT_CONSTRUCTED and writes nothing, or OK with the advanced state (R86). -/
theorem advance_next {valid : Bool} {moved s t : State} {out aux : Word} (h : advance valid moved out aux s = .next t) :
    (valid = false ∧ t = s.fail .notConstructed) ∨ (valid = true ∧ t = moved.ok out aux) := by
  unfold advance at h
  split at h <;> simp_all

end Sys2Proof.Machine
end

