-- ==== Sys2Proof/Laws/Exec.lean ====
section
/-! SUPPORT. What `exec` does, said once: CONS and ADV of any engine through their common frames (R84, R86), the answer of every
command, and what failing checks and the arithmetic of each engine can give. -/

namespace Sys2Proof.Machine

/-! ## Agreement of two states on an engine -/

theorem State.sameEngine_refl (s : State) (e : Engine) : s.sameEngine s e := by cases e <;> rfl

theorem State.sameEngine_symm {s t : State} {e : Engine} (h : s.sameEngine t e) : t.sameEngine s e := by
  cases e <;> exact Eq.symm h

theorem State.sameEngine_trans {s t u : State} {e : Engine} (h : s.sameEngine t e) (h' : t.sameEngine u e) :
    s.sameEngine u e := by
  cases e <;> exact Eq.trans h h'

/-! ## CONS and ADV of any engine -/

/-- The state a successful CONS of an engine leaves, before it answers (R116, R131, R144, R161, R171, R186). -/
def State.built (s : State) : Engine → State
  | .lcg  => { s with lcg := { s.lcg with x := s.lcg.cfg.seed, valid := true } }
  | .leh  => { s with leh := { s.leh with x := s.leh.cfg.seed, valid := true } }
  | .lfg  => { s with lfg := { s.lfg with hist := s.lfg.seedHist.take s.lfg.cfg.k.toNat, valid := true } }
  | .lfsr => { s with lfsr := { s.lfsr with r := s.lfsr.cfg.seed.extractLsb' 0 32, valid := true } }
  | .msq  => { s with msq := { s.msq with x := s.msq.cfg.seed, valid := true } }
  | .wh   => { s with wh := { s.wh with
      s0 := s.wh.cfg.seed0.extractLsb' 0 15, s1 := s.wh.cfg.seed1.extractLsb' 0 15, s2 := s.wh.cfg.seed2.extractLsb' 0 15,
      valid := true } }

/-- The state a successful ADV of an engine leaves, before it answers. -/
def State.moved (s : State) : Engine → State
  | .lcg  => { s with lcg := { s.lcg with x := lcgNext s.lcg.cfg s.lcg.x } }
  | .leh  => { s with leh := { s.leh with x := lehNext s.leh.cfg s.leh.x } }
  | .lfg  => { s with lfg := { s.lfg with hist := histAppend s.lfg.hist (lfgNext s.lfg.cfg s.lfg.hist) } }
  | .lfsr => { s with lfsr := { s.lfsr with r := lfsrNext s.lfsr.cfg s.lfsr.r } }
  | .msq  => { s with msq := { s.msq with x := msqNext s.msq.cfg s.msq.x } }
  | .wh   => { s with wh := s.wh.next }

/-- The two data words a successful ADV of an engine answers. -/
def State.output (s : State) : Engine → Word × Word
  | .lcg  => (lcgOut s.lcg.cfg.obr (lcgNext s.lcg.cfg s.lcg.x), 0)
  | .leh  => (lehNext s.leh.cfg s.leh.x, 0)
  | .lfg  => (lfgNext s.lfg.cfg s.lfg.hist, 0)
  | .lfsr => ((lfsrNext s.lfsr.cfg s.lfsr.r).setWidth 64, 0)
  | .msq  => (msqNext s.msq.cfg s.msq.x, 0)
  | .wh   => (whFloat s.params.whFloat s.wh.s0 s.wh.s1 s.wh.s2, BitVec.ofNat 64 (whNum s.wh.s0 s.wh.s1 s.wh.s2))

theorem exec_cons (e : Engine) (s : State) : exec (.cons e) s = construct (s.checks e) (s.built e) s := by
  cases e <;> rfl

theorem exec_adv (e : Engine) (s : State) :
    exec (.adv e) s = advance (s.valid e) (s.moved e) (s.output e).1 (s.output e).2 s := by
  cases e <;> rfl

/-- A command is a CONS, an ADV, or one of the five that write configuration or read it. -/
theorem instr_cases (i : Instr) :
    (∃ e, i = .cons e) ∨ (∃ e, i = .adv e) ∨ (∃ r v, i = .wrcfg r v) ∨ (∃ r, i = .rdcfg r) ∨ (∃ p, i = .ldpreLcg p) ∨
      (∃ p, i = .ldpreLeh p) ∨ (∃ v, i = .hpush v) ∨ i = .hclr := by
  cases i
  case consLcg => exact .inl ⟨.lcg, rfl⟩
  case consLeh => exact .inl ⟨.leh, rfl⟩
  case consLfg => exact .inl ⟨.lfg, rfl⟩
  case consLfsr => exact .inl ⟨.lfsr, rfl⟩
  case consMsq => exact .inl ⟨.msq, rfl⟩
  case consWh => exact .inl ⟨.wh, rfl⟩
  case advLcg => exact .inr (.inl ⟨.lcg, rfl⟩)
  case advLeh => exact .inr (.inl ⟨.leh, rfl⟩)
  case advLfg => exact .inr (.inl ⟨.lfg, rfl⟩)
  case advLfsr => exact .inr (.inl ⟨.lfsr, rfl⟩)
  case advMsq => exact .inr (.inl ⟨.msq, rfl⟩)
  case advWh => exact .inr (.inl ⟨.wh, rfl⟩)
  all_goals simp

/-- Every command answers a next state, and that state carries a response. -/
theorem exec_answers (i : Instr) (s : State) : ∃ t, exec i s = .next t ∧ t.rsp.isSome := by
  cases i <;> simp only [exec, execWrcfg, execRdcfg, execLdpreLcg, execLdpreLeh, execConsLcg, execConsLeh, execConsLfg,
    execConsLfsr, execConsMsq, execConsWh, execAdvLcg, execAdvLeh, execAdvLfg, execAdvLfsr, execAdvMsq, execAdvWh, execHpush,
    execHclr, complete, illegal, construct, advance] <;> (try split) <;> exact ⟨_, rfl, rfl⟩

/-! ## Checks -/

/-- R84, R202: a failing check of any engine answers a ConfigurationError. -/
theorem checks_cause (s : State) (e : Engine) (c : Status) (h : firstFailing (s.checks e) = some c) :
    c.isConfigurationError = true := by
  cases e <;> simp only [State.checks, lcgChecks, lehChecks, lfgChecks, lfsrChecks, msqChecks, whChecks, firstFailing] at h <;>
    repeat' split at h
  all_goals (cases h; try decide)

/-- A ConfigurationError is not OK. -/
theorem Status.ne_ok_of_isConfigurationError (c : Status) (h : c.isConfigurationError = true) : c ≠ .ok := by
  cases c <;> first | decide | cases h

/-! ## Ranges of results -/

/-- The new LCG state is below the modulus (R16). -/
theorem lcgNext_toNat (c : LcgCfg) (x : Word) (h : 1 ≤ c.mod.toNat) :
    (lcgNext c x).toNat = (c.mul.toNat * x.toNat + c.inc.toNat) % c.mod.toNat := by
  have hm := c.mod.isLt
  have := Nat.mod_lt (c.mul.toNat * x.toNat + c.inc.toNat) h
  simp only [lcgNext, BitVec.toNat_ofNat]
  exact Nat.mod_eq_of_lt (by omega)

/-- The new LEH state is below the modulus (R18). -/
theorem lehNext_toNat (c : LehCfg) (x : Word) (h : 1 ≤ c.mod.toNat) :
    (lehNext c x).toNat = c.mul.toNat * x.toNat % c.mod.toNat := by
  have hm := c.mod.isLt
  have := Nat.mod_lt (c.mul.toNat * x.toNat) h
  simp only [lehNext, BitVec.toNat_ofNat]
  exact Nat.mod_eq_of_lt (by omega)

/-- The value an LFG advance appends, as an exact residue (R145, R146). -/
theorem lfgNext_toNat (c : LfgCfg) (h : List Word) (hm : 1 ≤ c.mod.toNat) :
    ((lfgNext c h).toNat : Int) =
      (LfgOp.ofWord c.op).apply (tap h c.j.toNat) (tap h c.k.toNat) % (c.mod.toNat : Int) := by
  have hm' : (0 : Int) < c.mod.toNat := by exact_mod_cast hm
  have h0 := Int.emod_nonneg ((LfgOp.ofWord c.op).apply (tap h c.j.toNat) (tap h c.k.toNat)) (ne_of_gt hm')
  have h1 := Int.emod_lt_of_pos ((LfgOp.ofWord c.op).apply (tap h c.j.toNat) (tap h c.k.toNat)) hm'
  have hl := c.mod.isLt
  simp only [lfgNext, BitVec.toNat_ofNat]
  rw [Nat.mod_eq_of_lt (by omega)]
  omega

/-- The digits MID takes are below 10^n (R172). -/
theorem mid_lt (sq n : Nat) : mid sq n < 10 ^ n := by
  unfold mid
  split
  · simp_all
  · exact Nat.mod_lt _ (by positivity)

/-- A Wichmann-Hill register after a transition, for a modulus that fits it (R188). -/
theorem whNext_toNat (a m : Nat) (s : Reg15) (h0 : 0 < m) (h : m ≤ 2 ^ 15) : (whNext a m s).toNat = a * s.toNat % m := by
  have := Nat.mod_lt (a * s.toNat) h0
  simp only [whNext, BitVec.toNat_ofNat]
  exact Nat.mod_eq_of_lt (by omega)

/-- NUM is below DEN (R189). -/
theorem whNum_lt (a b c : Reg15) : whNum a b c < 27817185604309 := Nat.mod_lt _ (by norm_num)

/-- Appending to a history that is not empty keeps its length (R43). -/
theorem histAppend_length (h : List Word) (w : Word) (hl : h ≠ []) : (histAppend h w).length = h.length := by
  have := List.length_pos_iff.2 hl
  simp only [histAppend, List.length_append, List.length_tail, List.length_cons, List.length_nil]
  omega

/-! ## The seed history -/

/-- What HPUSH does to SEEDHIST, HLEN and VALID.LFG (R140). -/
theorem Lfg.push_room (e : Lfg) (k : Nat) (v : Word) (h : e.hlen < k) :
    e.push k v = { e with seedHist := e.seedHist.write e.hlen v, hlen := e.hlen + 1, valid := false } := by
  simp [Lfg.push, hlenAfterPush, h]

theorem Lfg.push_full (e : Lfg) (k : Nat) (v : Word) (h : k ≤ e.hlen) :
    e.push k v = { e with hlen := k + 1, valid := false } := by
  simp [Lfg.push, hlenAfterPush, Nat.not_lt.2 h]

end Sys2Proof.Machine
end

