-- ==== Sys2Proof/Laws/Float.lean ====
section
/-! SUPPORT. What the one rounding operation of Machine/Float.lean can do. -/

namespace Sys2Proof.Machine

/-- Nothing rounds to nothing. -/
@[simp] theorem roundQuotient_zero (d : Nat) : roundQuotient 0 d = ⟨0, 0⟩ := rfl

/-- The scale `roundQuotient` takes puts the quotient into [2^52, 2^53). -/
theorem roundQuotient_scale (n d : Nat) (hd : 0 < d) (hlo : d ≤ n * 2 ^ 64) (hhi : n < d * 2 ^ 52) :
    2 ^ 52 * d ≤ n * 2 ^ (116 - Nat.log2 (n * 2 ^ 64 / d)) ∧ n * 2 ^ (116 - Nat.log2 (n * 2 ^ 64 / d)) < 2 ^ 53 * d := by
  have hk0 : n * 2 ^ 64 / d ≠ 0 := Nat.pos_iff_ne_zero.1 (Nat.div_pos hlo hd)
  have hkd := Nat.div_mul_le_self (n * 2 ^ 64) d
  have hkd' := Nat.lt_div_mul_add (a := n * 2 ^ 64) hd
  have hlt : n * 2 ^ 64 / d < 2 ^ 116 := by
    rw [Nat.div_lt_iff_lt_mul hd]
    omega
  have h1 := Nat.log2_self_le hk0
  have h2 := Nat.lt_log2_self (n := n * 2 ^ 64 / d)
  have hL : Nat.log2 (n * 2 ^ 64 / d) < 116 := (Nat.log2_lt hk0).2 hlt
  generalize n * 2 ^ 64 / d = k at *
  generalize Nat.log2 k = l at *
  obtain ⟨s, hs⟩ : ∃ s, 116 = l + s := ⟨116 - l, by omega⟩
  have hp : 2 ^ l * 2 ^ s = (2 ^ 116 : Nat) := by rw [← pow_add, ← hs]
  rw [show 116 - l = s by omega]
  have a1 : 2 ^ l * d ≤ n * 2 ^ 64 := (Nat.mul_le_mul_right d h1).trans hkd
  have a2 : n * 2 ^ 64 < 2 ^ (l + 1) * d := by
    have := Nat.mul_le_mul_right d h2
    rw [Nat.succ_mul] at this
    omega
  constructor
  · refine Nat.le_of_mul_le_mul_right (c := 2 ^ 64) ?_ (by positivity)
    calc 2 ^ 52 * d * 2 ^ 64 = 2 ^ l * 2 ^ s * d := by rw [hp]; ring
      _ = 2 ^ l * d * 2 ^ s := by ring
      _ ≤ n * 2 ^ 64 * 2 ^ s := Nat.mul_le_mul_right _ a1
      _ = n * 2 ^ s * 2 ^ 64 := by ring
  · refine Nat.lt_of_mul_lt_mul_right (a := 2 ^ 64) ?_
    calc n * 2 ^ s * 2 ^ 64 = n * 2 ^ 64 * 2 ^ s := by ring
      _ < 2 ^ (l + 1) * d * 2 ^ s := Nat.mul_lt_mul_of_pos_right a2 (by positivity)
      _ = 2 * (2 ^ l * 2 ^ s) * d := by ring
      _ = 2 ^ 53 * d * 2 ^ 64 := by rw [hp]; ring

/-- `roundQuotient` rounds the exact quotient to 53 bits, to nearest, ties to even, and the significand is at most 2^53. -/
theorem roundQuotient_rounds (n d : Nat) (hd : 0 < d) (hlo : d ≤ n * 2 ^ 64) (hhi : n < d * 2 ^ 52) :
    roundsTo ((n : ℚ) / d) (roundQuotient n d).value ∧ (roundQuotient n d).num ≤ 2 ^ 53 ∧ (roundQuotient n d).sh ≤ 116 := by
  have hn : n ≠ 0 := by rintro rfl; omega
  obtain ⟨hl, hu⟩ := roundQuotient_scale n d hd hlo hhi
  simp only [roundQuotient, hn, if_false, Scaled.value]
  have hs : 116 - Nat.log2 (n * 2 ^ 64 / d) ≤ 116 := Nat.sub_le _ _
  generalize 116 - Nat.log2 (n * 2 ^ 64 / d) = s at *
  have hdiv := Nat.div_add_mod (n * 2 ^ s) d
  have hr := Nat.mod_lt (n * 2 ^ s) hd
  have hq : n * 2 ^ s / d < 2 ^ 53 := (Nat.div_lt_iff_lt_mul hd).2 hu
  generalize n * 2 ^ s / d = q at *
  generalize n * 2 ^ s % d = r at *
  have hdq : (0 : ℚ) < d := by exact_mod_cast hd
  have hx : (n : ℚ) / d * 2 ^ s = q + r / d := by
    field_simp
    exact_mod_cast hdiv.symm
  have hr0 : (0 : ℚ) ≤ r / d := by positivity
  have hr1 : (r : ℚ) / d < 1 := (div_lt_one hdq).2 (by exact_mod_cast hr)
  have hlq : (2 : ℚ) ^ 52 ≤ q := by
    have : 2 ^ 52 ≤ q := by
      by_contra h
      have : d * q ≤ d * (2 ^ 52 - 1) := Nat.mul_le_mul_left d (by omega)
      rw [Nat.mul_sub] at this
      omega
    exact_mod_cast this
  have hq' : (q : ℚ) + 1 ≤ 2 ^ 53 := by exact_mod_cast hq
  refine ⟨.inr ⟨_, s, by rw [zpow_natCast], ?_, ?_⟩, ?_, hs⟩
  · rw [zpow_natCast, hx]
    exact ⟨by linarith, by linarith⟩
  · rw [zpow_natCast, hx]
    have half {k : Nat} : (k * d < 2 * r ↔ (k : ℚ) / 2 < r / d) := by
      rw [lt_div_iff₀ hdq, ← Nat.cast_lt (α := ℚ)]
      push_cast
      constructor <;> intro h <;> linarith
    have eqv : (2 * r = d ↔ (r : ℚ) / d = 1 / 2) := by
      rw [div_eq_iff hdq.ne', ← Nat.cast_inj (R := ℚ)]
      push_cast
      constructor <;> intro h <;> linarith
    have hlt := half (k := 1)
    rw [one_mul, Nat.cast_one] at hlt
    generalize (r : ℚ) / d = x at *
    split
    · rename_i h
      have hxh : 1 / 2 ≤ x := h.elim (fun h => (hlt.1 h).le) (fun h => (eqv.1 h.1).ge)
      push_cast
      rw [show (q : ℚ) + 1 - (q + x) = 1 - x by ring, abs_of_pos (by linarith)]
      refine ⟨by linarith, fun he => ?_⟩
      have hx2 : x = 1 / 2 := by linarith
      rcases h with h | h
      · have := hlt.1 h
        linarith
      · omega
    · rename_i h
      rw [not_or] at h
      have hxh : x ≤ 1 / 2 := not_lt.1 (fun h' => h.1 (hlt.2 h'))
      rw [show (q : ℚ) - (q + x) = -x by ring, abs_neg, abs_of_nonneg hr0]
      refine ⟨hxh, fun he => ?_⟩
      have : ¬ q % 2 = 1 := fun h2 => h.2 ⟨eqv.2 he, h2⟩
      omega
  · split <;> omega

end Sys2Proof.Machine
end

