-- ==== Sys2Proof/Laws/PerInstr.lean ====
section
/-! SUPPORT. Families of facts about each command as syntax (LAWS.json, per_instruction). Family Fields: the fields of a
command's word (R61): the reserved fields are 0, ENG is the engine's number, IDX and OPC are as R63 says. -/

namespace Sys2Proof.Laws.Fields

/-- The operation of a command (R63). -/
def opcOf : Instr → Opc
  | .wrcfg _ _  => .wrcfg
  | .rdcfg _    => .rdcfg
  | .ldpreLcg _ | .ldpreLeh _ => .ldpre
  | .consLcg | .consLeh | .consLfg | .consLfsr | .consMsq | .consWh => .cons
  | .advLcg | .advLeh | .advLfg | .advLfsr | .advMsq | .advWh => .adv
  | .hpush _    => .hpush
  | .hclr       => .hclr

/-- The IDX of a command (R61, R63). -/
def idxOf : Instr → BitVec 8
  | .wrcfg r _  => r.index
  | .rdcfg r    => r.index
  | .ldpreLcg p | .ldpreLeh p => p.num
  | .consLcg | .consLeh | .consLfg | .consLfsr | .consMsq | .consWh => 0
  | .advLcg | .advLeh | .advLfg | .advLfsr | .advMsq | .advWh => 0
  | .hpush _ | .hclr => 0

/-- The fields of the word `mkWord` lays out. -/
theorem mkWord_fields (op : BitVec 8) (en : BitVec 4) (ix : BitVec 8) (d : Word) :
    (⟨mkWord op en ix, d⟩ : Command).opc = op ∧ (⟨mkWord op en ix, d⟩ : Command).eng = en ∧
    (⟨mkWord op en ix, d⟩ : Command).z1 = 0 ∧ (⟨mkWord op en ix, d⟩ : Command).idx = ix ∧
    (⟨mkWord op en ix, d⟩ : Command).z0 = 0 := by
  have ho := op.isLt
  have he := en.isLt
  have hi := ix.isLt
  have hw : (mkWord op en ix).toNat = op.toNat * 16777216 + en.toNat * 1048576 + ix.toNat * 256 := by
    simp only [mkWord, BitVec.toNat_ofNat]
    omega
  have field (lo len : Nat) (v : BitVec len)
      (h : (op.toNat * 16777216 + en.toNat * 1048576 + ix.toNat * 256) / 2 ^ lo % 2 ^ len = v.toNat) :
      (mkWord op en ix).extractLsb' lo len = v := by
    apply BitVec.eq_of_toNat_eq
    rw [BitVec.extractLsb'_toNat, hw, Nat.shiftRight_eq_div_pow, h]
  exact ⟨field 24 8 op (by omega), field 20 4 en (by omega), field 16 4 0 (show _ = 0 by omega), field 8 8 ix (by omega),
    field 0 8 0 (show _ = 0 by omega)⟩

/-- The fields of an encoded command. -/
def Statement (i : Instr) : Prop :=
  (encode i).opc = (opcOf i).num ∧ (encode i).eng = i.engine.num ∧ (encode i).z1 = 0 ∧ (encode i).idx = idxOf i ∧
    (encode i).z0 = 0

theorem wrcfg (r : CfgReg) (v : Word) : Statement (.wrcfg r v) := mkWord_fields _ _ _ _
theorem rdcfg (r : CfgReg) : Statement (.rdcfg r) := mkWord_fields _ _ _ _
theorem ldpreLcg (p : Preset) : Statement (.ldpreLcg p) := mkWord_fields _ _ _ _
theorem ldpreLeh (p : Preset) : Statement (.ldpreLeh p) := mkWord_fields _ _ _ _
theorem consLcg : Statement (.consLcg) := mkWord_fields _ _ _ _
theorem consLeh : Statement (.consLeh) := mkWord_fields _ _ _ _
theorem consLfg : Statement (.consLfg) := mkWord_fields _ _ _ _
theorem consLfsr : Statement (.consLfsr) := mkWord_fields _ _ _ _
theorem consMsq : Statement (.consMsq) := mkWord_fields _ _ _ _
theorem consWh : Statement (.consWh) := mkWord_fields _ _ _ _
theorem advLcg : Statement (.advLcg) := mkWord_fields _ _ _ _
theorem advLeh : Statement (.advLeh) := mkWord_fields _ _ _ _
theorem advLfg : Statement (.advLfg) := mkWord_fields _ _ _ _
theorem advLfsr : Statement (.advLfsr) := mkWord_fields _ _ _ _
theorem advMsq : Statement (.advMsq) := mkWord_fields _ _ _ _
theorem advWh : Statement (.advWh) := mkWord_fields _ _ _ _
theorem hpush (v : Word) : Statement (.hpush v) := mkWord_fields _ _ _ _
theorem hclr : Statement (.hclr) := mkWord_fields _ _ _ _

end Sys2Proof.Laws.Fields
end

