-- ==== Sys2Proof/Machine/Assembler.lean ====
section
/-! DEFINITION. The assembler's text (spec/30_encoding.md rules R68, R69): one command per line; `;` starts a comment; names in
any case; numbers decimal, hexadecimal with 0x, or 2^n, combined with + and -. What the spec does not say of the text (white
space, signs, letter case and separators in numbers, the range of a value, names that give an illegal word) is DESIGN CHOICE, log 14. -/

namespace Sys2Proof.Machine

/-- White space within a line. -/
def isBlank (c : Char) : Bool := c = ' ' || c = '\t' || c = '\r'

/-- The pieces of a text between the separators that `p` marks. -/
def pieces (p : Char → Bool) : List Char → List (List Char)
  | []      => [[]]
  | c :: cs =>
    match pieces p cs with
    | []      => [[c]]
    | w :: ws => if p c then [] :: w :: ws else (c :: w) :: ws

/-- The value a name stands for in a table of names. -/
def lookup {α : Type} (table : List (String × α)) (name : List Char) : Option α :=
  match table with
  | []            => none
  | (n, a) :: tbl => if n.toList = name then some a else lookup tbl name

/-! ## Numbers -/

/-- A digit in a base up to 16; letters are in capitals. -/
def digit? (base : Nat) (c : Char) : Option Nat :=
  let d := if '0' ≤ c ∧ c ≤ '9' then c.toNat - 48 else if 'A' ≤ c ∧ c ≤ 'F' then c.toNat - 55 else base
  if d < base then some d else none

/-- Digits in a base, most significant first, after the value `acc`. -/
def digits? (base : Nat) (acc : Nat) : List Char → Option Nat
  | []      => some acc
  | c :: cs => (digit? base c).bind (fun d => digits? base (acc * base + d) cs)

/-- A number without a sign: `0x` and hexadecimal digits, `2^` and a decimal exponent, or decimal digits (R68). DESIGN CHOICE
(log 14): the digit separators of the spec's own notation (spec/00_scope.md section 6) are rejected, R68 being silent on them;
zeros may lead. The text comes in capitals (`assembleLine`). -/
def number? : List Char → Option Nat
  | []                    => none
  | '0' :: 'X' :: c :: cs => digits? 16 0 (c :: cs)
  | '2' :: '^' :: c :: cs => (digits? 10 0 (c :: cs)).map (fun n => 2 ^ n)
  | cs                    => digits? 10 0 cs

/-- The terms of a sum, each with its sign: `cur` is the term being read, last character first. A sign in front of the first
term, or two signs together, leaves an empty term, which `number?` rejects (DESIGN CHOICE, log 14: R68 is silent). -/
def terms (neg : Bool) (cur : List Char) : List Char → List (Bool × List Char)
  | []      => [(neg, cur.reverse)]
  | c :: cs =>
    if c = '+' then (neg, cur.reverse) :: terms false [] cs
    else if c = '-' then (neg, cur.reverse) :: terms true [] cs
    else terms neg (c :: cur) cs

/-- The sum of signed terms. -/
def sum? : List (Bool × List Char) → Option Int
  | []             => some 0
  | (neg, t) :: ts =>
    (number? t).bind (fun n => (sum? ts).map (fun r => (if neg then -(n : Int) else (n : Int)) + r))

/-- A value: numbers combined with + and - (R68), in the range of a 64-bit operand, the first without a sign in front
(DESIGN CHOICE, log 14). -/
def value? (cs : List Char) : Option Word :=
  match sum? (terms false [] cs) with
  | some (.ofNat n) => if n < 2 ^ 64 then some (BitVec.ofNat 64 n) else none
  | _               => none

/-- A value of at most 8 bits (R69, OBRSET). -/
def byte? (cs : List Char) : Option (BitVec 8) :=
  (value? cs).bind (fun v => if v.toNat < 256 then some (v.setWidth 8) else none)

/-! ## Names -/

/-- The engine names (R62). -/
def engine? : List Char → Option Engine :=
  lookup [("LCG", .lcg), ("LEH", .leh), ("LFG", .lfg), ("LFSR", .lfsr), ("MSQ", .msq), ("WH", .wh)]

/-- The register names of an engine (R41). -/
def reg? : Engine → List Char → Option CfgReg
  | .lcg  => lookup [("MOD", .lcg .mod), ("MUL", .lcg .mul), ("INC", .lcg .inc), ("SEED", .lcg .seed), ("OBR", .lcg .obr)]
  | .leh  => lookup [("MOD", .leh .mod), ("MUL", .leh .mul), ("SEED", .leh .seed)]
  | .lfg  => lookup [("MOD", .lfg .mod), ("J", .lfg .j), ("K", .lfg .k), ("OP", .lfg .op), ("HLEN", .lfg .hlen)]
  | .lfsr => lookup [("SEED", .lfsr .seed), ("MASK", .lfsr .mask)]
  | .msq  => lookup [("SEED", .msq .seed), ("DIGITS", .msq .digits), ("WIDTH", .msq .width)]
  | .wh   => lookup [("SEED0", .wh .seed0), ("SEED1", .wh .seed1), ("SEED2", .wh .seed2)]

/-- `<eng>.<reg>` (R68). -/
def cell? (cs : List Char) : Option CfgReg :=
  match pieces (fun c => c = '.') cs with
  | [e, r] => (engine? e).bind (fun e => reg? e r)
  | _      => none

/-- The preset names and the alias (R67). -/
def preset? : List Char → Option Preset :=
  lookup [("MINSTD", .minstd), ("MINSTD_RAND0", .minstd), ("MINSTD_RAND", .minstdRand), ("RANDU", .randu), ("ZX81", .zx81),
    ("BORLAND", .borland), ("GLIBC", .glibc), ("POSIX", .posix), ("RANQD1", .ranqd1)]

/-- An operator of LFGCFG: a name, or a number (R69). -/
def lfgOp? (cs : List Char) : Option Word :=
  match lookup [("ADD", (0 : Word)), ("SUB", 1), ("MUL", 2), ("XOR", 3)] cs with
  | some w => some w
  | none   => value? cs

/-- Every value of a list, or none. -/
def values? : List (List Char) → Option (List Word)
  | []      => some []
  | t :: ts => (value? t).bind (fun v => (values? ts).map (v :: ·))

/-! ## Lines -/

/-- The mnemonics of R68 and R69. -/
inductive Mnemonic where
  | wrcfg | rdcfg | ldpre | cons | adv | hpush | hclr
  | seed | obrset | obrclr | hload | init | lfgcfg
  deriving DecidableEq, Repr

/-- A mnemonic's name (R68, R69). -/
def mnemonic? : List Char → Option Mnemonic :=
  lookup [("WRCFG", .wrcfg), ("RDCFG", .rdcfg), ("LDPRE", .ldpre), ("CONS", .cons), ("ADV", .adv), ("HPUSH", .hpush),
    ("HCLR", .hclr), ("SEED", .seed), ("OBRSET", .obrset), ("OBRCLR", .obrclr), ("HLOAD", .hload), ("INIT", .init),
    ("LFGCFG", .lfgcfg)]

/-- WRCFG of a writable register. DESIGN CHOICE (log 14): R68 does not say whether the assembler takes WRCFG LFG.HLEN, whose word
0x01200400 is illegal; the text is rejected. -/
def wrcfg? (r : CfgReg) (v : Word) : Option (List Instr) := if r.writable then some [.wrcfg r v] else none

/-- The commands of a mnemonic with its operands (R68, R69). -/
def statement? : Mnemonic → List (List Char) → Option (List Instr)
  | .wrcfg, [r, v]           => (cell? r).bind (fun r => (value? v).bind (wrcfg? r))
  | .rdcfg, [r]              => (cell? r).map (fun r => [.rdcfg r])
  | .ldpre, [e, p]           => (engine? e).bind (fun e => (preset? p).bind (fun p => (ldpre e p).map ([·])))
  | .cons, [e]               => (engine? e).map (fun e => [.cons e])
  | .adv, [e]                => (engine? e).map (fun e => [.adv e])
  | .hpush, [v]              => (value? v).map (fun v => [.hpush v])
  | .hclr, []                => some [.hclr]
  | .seed, [e, v]            => (engine? e).bind (fun e => (value? v).bind (fun v => (Pseudo.seed e v).expand))
  | .obrset, [s, n]          => (byte? s).bind (fun s => (byte? n).bind (fun n => (Pseudo.obrset s n).expand))
  | .obrclr, []              => Pseudo.obrclr.expand
  | .hload, vs               => (values? vs).bind (fun vs => (Pseudo.hload vs).expand)
  | .init, [e, p, v]         =>
    (engine? e).bind (fun e => (preset? p).bind (fun p => (value? v).bind (fun v => (Pseudo.init e p v).expand)))
  | .lfgcfg, [m, j, k, op]   =>
    (value? m).bind (fun m => (value? j).bind (fun j => (value? k).bind (fun k =>
      (lfgOp? op).bind (fun op => (Pseudo.lfgcfg m j k op).expand))))
  | _, _                     => none

/-- The operands of a line, its blanks taken out wherever they stand (DESIGN CHOICE, log 14). -/
def operands (cs : List Char) : List (List Char) :=
  match cs.filter (fun c => !isBlank c) with
  | [] => []
  | cs => pieces (fun c => c = ',') cs

/-- One line of text: a command or a pseudo-command, or nothing (R68). The whole line is folded to capitals: R68 makes names
case-insensitive; that the fold takes the prefix `0X` and hexadecimal digits of either case too is DESIGN CHOICE, log 14. -/
def assembleLine (line : List Char) : Option (List Instr) :=
  let code := ((line.takeWhile (fun c => c ≠ ';')).map Char.toUpper).dropWhile isBlank
  match code.takeWhile (fun c => !isBlank c) with
  | []   => some []
  | name => (mnemonic? name).bind (fun m => statement? m (operands (code.dropWhile (fun c => !isBlank c))))

/-- Several lines, in order; none if one of them is no command. -/
def assembleLines : List (List Char) → Option (List Instr)
  | []      => some []
  | l :: ls => (assembleLine l).bind (fun is => (assembleLines ls).map (is ++ ·))

/-- A text: the words and data its commands are presented as (R68). -/
def assemble (text : String) : Option (List Command) :=
  (assembleLines (pieces (fun c => c = '\n') text.toList)).map (List.map encode)

end Sys2Proof.Machine
end

