-- ==== Sys2Proof/Tests/Slice0.lean ====
section
/-! SUPPORT. Tests: well-formedness, decoding of words written out from the spec, one-step tests with expected values from
spec/95_test_vectors.md (the vector is named beside each), and for every obligation with hypotheses a witness that meets them. -/

namespace Sys2Proof.Tests
open Sys2Proof Sys2Proof.Machine

/-! ## Helpers -/

/-- The next state of an outcome. -/
def nextOf (r : Result) : Option State :=
  match r with
  | .next t => some t
  | .fault _ => none
  | .refused _ => none

/-- The response a command gets. -/
def answer (i : Instr) (s : State) : Option Response := (nextOf (exec i s)).bind State.rsp

/-- The status of what a step answers to a word and data. -/
def statusOf (w : CmdWord) (d : Word) : Option Status :=
  (nextOf (step (State.reset.withHost [.command ⟨w, d⟩]))).bind (fun t => t.rsp.map Response.status)

def withLcg (m a c seed obr x : Word) (v : Bool) : State := { State.reset with lcg := ⟨⟨m, a, c, seed, obr⟩, x, v⟩ }
def withLeh (m a seed x : Word) (v : Bool) : State := { State.reset with leh := ⟨⟨m, a, seed⟩, x, v⟩ }
def withLfg (m j k op : Word) (seeds h : List Word) (v : Bool) : State :=
  { State.reset with lfg := ⟨⟨m, j, k, op⟩, seeds.length, (List.range seeds.length).zip seeds, h, v⟩ }
def withLfsr (seed mask : Word) (r : Reg32) (v : Bool) : State := { State.reset with lfsr := ⟨⟨seed, mask⟩, r, v⟩ }
def withMsq (seed digits width x : Word) (v : Bool) : State := { State.reset with msq := ⟨⟨seed, digits, width⟩, x, v⟩ }
def withWh (a b c : Word) (x y z : Reg15) (v : Bool) : State := { State.reset with wh := ⟨⟨a, b, c⟩, x, y, z, v⟩ }

/-- A block with every engine constructed. -/
def running : State :=
  { State.reset with
    lcg  := (withLcg 100 7 3 1 0x040101 1 true).lcg
    leh  := (withLeh 7 3 1 1 true).leh
    lfg  := (withLfg 10 3 7 0 [6, 4, 2, 1, 8, 9, 3] [6, 4, 2, 1, 8, 9, 3] true).lfg
    lfsr := (withLfsr 7 3 7 true).lfsr
    msq  := (withMsq 42 2 0 42 true).msq
    wh   := (withWh 1 1 1 1 1 1 true).wh }

/-- A host that presents one command. -/
def presents (i : Instr) (s : State) : State := s.withHost [.command (encode i)]

/-! ## Well-formedness: each check has a term it refuses -/

theorem test_wf_refuses_wrcfg_hlen : Instr.wf (.wrcfg (.lfg .hlen) 5) = false := by decide
theorem test_wf_refuses_ldpreLeh_borland : Instr.wf (.ldpreLeh .borland) = false := by decide
theorem test_wf_refuses_ldpreLeh_ranqd1 : Instr.wf (.ldpreLeh .ranqd1) = false := by decide
theorem test_wf_takes_rdcfg_hlen : Instr.wf (.rdcfg (.lfg .hlen)) = true := by decide
theorem test_wf_takes_ldpreLeh_zx81 : Instr.wf (.ldpreLeh .zx81) = true := by decide

/-! ## Decoding: OPC 31:24, ENG 23:20, 0 19:16, IDX 15:8, 0 7:0, bit by bit (R61, R62, R63, R41, R67) -/

/-- OPC 00000001, ENG 0000 (LCG), IDX 00000011 (SEED). -/
theorem test_decode_wrcfg : decode ⟨0b00000001000000000000001100000000, 0x123456789ABCDEF0⟩ =
    .ok (.wrcfg (.lcg .seed) 0x123456789ABCDEF0) := by rfl
/-- OPC 00000001, ENG 0101 (WH), IDX 00000010 (SEED2). -/
theorem test_decode_wrcfg_wh : decode ⟨0b00000001010100000000001000000000, 7⟩ = .ok (.wrcfg (.wh .seed2) 7) := by rfl
/-- OPC 00000010, ENG 0010 (LFG), IDX 00000100 (HLEN). -/
theorem test_decode_rdcfg : decode ⟨0b00000010001000000000010000000000, 9⟩ = .ok (.rdcfg (.lfg .hlen)) := by rfl
/-- OPC 00000010, ENG 0001 (LEH), IDX 00000011 (SEED). -/
theorem test_decode_rdcfg_leh : decode ⟨0b00000010000100000000001100000000, 0⟩ = .ok (.rdcfg (.leh .seed)) := by rfl
/-- OPC 00000011, ENG 0000 (LCG), IDX 00000111 (RANQD1). -/
theorem test_decode_ldpreLcg : decode ⟨0b00000011000000000000011100000000, 0⟩ = .ok (.ldpreLcg .ranqd1) := by rfl
/-- OPC 00000011, ENG 0001 (LEH), IDX 00000011 (ZX81). -/
theorem test_decode_ldpreLeh : decode ⟨0b00000011000100000000001100000000, 0⟩ = .ok (.ldpreLeh .zx81) := by rfl
theorem test_decode_consLcg : decode ⟨0b00000100000000000000000000000000, 0x123⟩ = .ok .consLcg := by rfl
theorem test_decode_consLeh : decode ⟨0b00000100000100000000000000000000, 0⟩ = .ok .consLeh := by rfl
theorem test_decode_consLfg : decode ⟨0b00000100001000000000000000000000, 0⟩ = .ok .consLfg := by rfl
theorem test_decode_consLfsr : decode ⟨0b00000100001100000000000000000000, 0⟩ = .ok .consLfsr := by rfl
theorem test_decode_consMsq : decode ⟨0b00000100010000000000000000000000, 0⟩ = .ok .consMsq := by rfl
theorem test_decode_consWh : decode ⟨0b00000100010100000000000000000000, 0⟩ = .ok .consWh := by rfl
theorem test_decode_advLcg : decode ⟨0b00000101000000000000000000000000, 0xFFFF⟩ = .ok .advLcg := by rfl
theorem test_decode_advLeh : decode ⟨0b00000101000100000000000000000000, 0⟩ = .ok .advLeh := by rfl
theorem test_decode_advLfg : decode ⟨0b00000101001000000000000000000000, 0⟩ = .ok .advLfg := by rfl
theorem test_decode_advLfsr : decode ⟨0b00000101001100000000000000000000, 0⟩ = .ok .advLfsr := by rfl
theorem test_decode_advMsq : decode ⟨0b00000101010000000000000000000000, 0⟩ = .ok .advMsq := by rfl
theorem test_decode_advWh : decode ⟨0b00000101010100000000000000000000, 0⟩ = .ok .advWh := by rfl
/-- OPC 00000110, ENG 0010 (LFG), IDX 0. -/
theorem test_decode_hpush : decode ⟨0b00000110001000000000000000000000, 6⟩ = .ok (.hpush 6) := by rfl
/-- OPC 00000111, ENG 0010 (LFG), IDX 0. -/
theorem test_decode_hclr : decode ⟨0b00000111001000000000000000000000, 6⟩ = .ok .hclr := by rfl

/-! The illegal words of P6 and V-SH-10 to V-SH-14, by the test of R66 that rejects them. -/

theorem test_illegal_reserved : decode ⟨0x05000001, 0⟩ = .error .reservedField ∧ decode ⟨0x04010000, 0⟩ = .error .reservedField := by
  exact ⟨rfl, rfl⟩
theorem test_illegal_opcode : decode ⟨0x00000000, 0⟩ = .error .opcode ∧ decode ⟨0x08000000, 0⟩ = .error .opcode ∧
    decode ⟨0xFF000000, 0⟩ = .error .opcode := by exact ⟨rfl, rfl, rfl⟩
theorem test_illegal_engine : decode ⟨0x05600000, 0⟩ = .error .engine ∧ decode ⟨0x03200000, 0⟩ = .error .engine ∧
    decode ⟨0x06300000, 1⟩ = .error .engine ∧ decode ⟨0x07000000, 0⟩ = .error .engine := by exact ⟨rfl, rfl, rfl, rfl⟩
theorem test_illegal_index : decode ⟨0x01200400, 5⟩ = .error .index ∧ decode ⟨0x02100200, 0⟩ = .error .index ∧
    decode ⟨0x03100400, 0⟩ = .error .index ∧ decode ⟨0x03000800, 0⟩ = .error .index ∧ decode ⟨0x05000100, 0⟩ = .error .index := by
  exact ⟨rfl, rfl, rfl, rfl, rfl⟩
/-- P6: an illegal word is answered 0x01. -/
theorem test_illegal_word_answers : statusOf 0x06300000 1 = some .illegalCmd ∧ Status.illegalCmd.code = 0x01 := by decide

/-! ## One step of each command -/

/-- V-SH-2: stored verbatim, no range check. -/
theorem test_wrcfg_verbatim : (nextOf (exec (.wrcfg (.wh .seed0) 0x10000000000) State.reset)).map (·.wh.cfg.seed0) =
    some 0x10000000000 := by decide
/-- P4: the same value clears VALID all the same. -/
theorem test_wrcfg_clears_valid : (nextOf (exec (.wrcfg (.lfsr .mask) 3) running)).map (·.lfsr.valid) = some false := by decide
/-- P2: `RDCFG LFG.HLEN` answers 7. -/
theorem test_rdcfg_hlen : answer (.rdcfg (.lfg .hlen)) running = some ⟨.ok, 7, 0⟩ := by decide
/-- V-SH-8: RDCFG does not clear VALID. -/
theorem test_rdcfg_keeps_valid : (nextOf (exec (.rdcfg (.leh .mul)) running)).map (·.leh.valid) = some true := by decide
/-- V-ROM-1, row 4. -/
theorem test_ldpreLcg_borland : (nextOf (exec (.ldpreLcg .borland) running)).map (fun t => (t.lcg.cfg, t.lcg.valid)) =
    some (⟨0x80000000, 0x15A4E35, 1, 1, 0x1E1001⟩, false) := by decide
/-- V-ROM-2, p = 3. -/
theorem test_ldpreLeh_zx81 : (nextOf (exec (.ldpreLeh .zx81) running)).map (fun t => (t.leh.cfg, t.leh.valid)) =
    some (⟨0x10001, 0x4B, 1⟩, false) := by decide
/-- V-LCG-19: the first failing check wins. -/
theorem test_consLcg_inc_range : answer .consLcg (withLcg 10 3 10 12 0 0 false) = some ⟨.incRange, 0, 0⟩ := by decide
/-- V-LCG-26: END above 64; V-LCG-14: 63 and 64 are the extreme legal range. -/
theorem test_consLcg_obr : answer .consLcg (withLcg 10 3 4 5 0x410001 0 false) = some ⟨.obrInvalid, 0, 0⟩ ∧
    answer .consLcg (withLcg 10 3 4 5 0x403F01 0 false) = some ⟨.ok, 0, 0⟩ := by decide
/-- V-LEH-11, V-LEH-6. -/
theorem test_consLeh_seed : answer .consLeh (withLeh 7 3 7 0 false) = some ⟨.seedRange, 0, 0⟩ ∧
    answer .consLeh (withLeh 7 3 0 0 false) = some ⟨.ok, 0, 0⟩ := by decide
/-- V-LFG-1: the history is the words pushed, the oldest first. -/
theorem test_consLfg_history : (nextOf (exec .consLfg (withLfg 10 3 7 0 [6, 4, 2, 1, 8, 9, 3] [] false))).map (·.lfg.hist) =
    some [6, 4, 2, 1, 8, 9, 3] := by decide
/-- V-LFG-15: MOD_ZERO is checked before the operator. -/
theorem test_consLfg_mod_zero : answer .consLfg (withLfg 0 1 2 4 [1, 2] [] false) = some ⟨.modZero, 0, 0⟩ := by decide
/-- V-LFSR-8: the whole 64-bit register is compared; V-LFSR-10: the zero seed comes first. -/
theorem test_consLfsr_range : answer .consLfsr (withLfsr 0x100000000 5 0 false) = some ⟨.fieldRange, 0, 0⟩ ∧
    answer .consLfsr (withLfsr 0 0x100000000 0 false) = some ⟨.lfsrZeroSeed, 0, 0⟩ := by decide
/-- V-MSQ-22, V-MSQ-23: the order of the checks. -/
theorem test_consMsq_order : answer .consMsq (withMsq 0x8000000000000000 99 2 0 false) = some ⟨.fieldRange, 0, 0⟩ ∧
    answer .consMsq (withMsq 0x10000000000 99 0 0 false) = some ⟨.msqDigits, 0, 0⟩ := by decide
/-- V-MSQ-20: ten digits are legal at width 64. -/
theorem test_consMsq_wide : answer .consMsq (withMsq 42 10 1 0 false) = some ⟨.ok, 0, 0⟩ := by decide
/-- V-WH-8, V-WH-9. -/
theorem test_consWh_range : answer .consWh (withWh 0x10005 1 1 0 0 0 false) = some ⟨.whSeedRange, 0, 0⟩ ∧
    answer .consWh (withWh 30000 30000 30000 0 0 0 false) = some ⟨.ok, 0, 0⟩ := by decide
/-- V-LCG-5, seventh output: 1211 under the exclusive END (the state before it is 466453691). -/
theorem test_advLcg_borland : answer .advLcg (withLcg 0x80000000 22695477 1 1 0x1E1001 466453691 true) =
    some ⟨.ok, 1211, 0⟩ := by decide
/-- V-LCG-13: the largest parameters need the 128-bit intermediate. -/
theorem test_advLcg_largest : answer .advLcg
    (withLcg 0xFFFFFFFFFFFFFFFF 0xFFFFFFFFFFFFFFFE 0xFFFFFFFFFFFFFFFE 0 0 0xFFFFFFFFFFFFFFFE true) = some ⟨.ok, 0, 0⟩ := by decide
/-- V-LEH-12. -/
theorem test_advLeh_largest : answer .advLeh (withLeh 0xFFFFFFFFFFFFFFFF 0xFFFFFFFFFFFFFFFE 0 0xFFFFFFFFFFFFFFFE true) =
    some ⟨.ok, 1, 0⟩ := by decide
/-- V-LEH-1, second output. -/
theorem test_advLeh_minstd : answer .advLeh (withLeh 0x7FFFFFFF 16807 1 16807 true) = some ⟨.ok, 282475249, 0⟩ := by decide
/-- V-LFG-2: a negative difference. -/
theorem test_advLfg_sub : answer .advLfg (withLfg 10 3 7 1 [6, 4, 2, 1, 8, 9, 3] [6, 4, 2, 1, 8, 9, 3] true) =
    some ⟨.ok, 9, 0⟩ := by decide
/-- P2: the history after the first ADV. -/
theorem test_advLfg_history : (nextOf (exec .advLfg running)).map (·.lfg.hist) = some [4, 2, 1, 8, 9, 3, 5] := by decide
/-- V-LFSR-1, second output. -/
theorem test_advLfsr_odd : answer .advLfsr (withLfsr 1 0x80200003 0x80200003 true) = some ⟨.ok, 0xC0300002, 0⟩ := by decide
/-- V-LFSR-5: seven with mask three goes to zero. -/
theorem test_advLfsr_to_zero : answer .advLfsr running = some ⟨.ok, 0, 0⟩ := by decide
/-- V-MSQ-6: an odd number of digits is dropped, the extra one on the right. -/
theorem test_advMsq_odd : answer .advMsq (withMsq 12345 3 0 12345 true) = some ⟨.ok, 399, 0⟩ := by decide
/-- V-MSQ-14: the largest square. -/
theorem test_advMsq_largest : answer .advMsq (withMsq 0 19 1 0xFFFFFFFFFFFFFFFF true) =
    some ⟨.ok, 2093846342648111928, 0⟩ := by decide
/-- V-WH-1, row 2: both outputs are of the state before the transition. -/
theorem test_advWh_outputs : answer .advWh (withWh 1 1 1 171 172 170 true) =
    some ⟨.ok, 0x3F915655E1AD3AD4, 470970160205⟩ := by decide
/-- V-WH-4, rows 4 and 5: a register above 30000. -/
theorem test_advWh_moves : (nextOf (exec .advWh (withWh 1 1 1 20411 28368 16295 true))).map (fun t => (t.wh.s0, t.wh.s1, t.wh.s2)) =
    some (9346, 30176, 10757) := by decide
/-- V-LFG-19: the eighth and the ninth word. -/
theorem test_hpush_saturates : answer (.hpush 1) (withLfg 0 0 0 0 [1, 1, 1, 1, 1, 1, 1] [] false) = some ⟨.ok, 8, 0⟩ ∧
    answer (.hpush 1) (withLfg 0 0 0 0 [1, 1, 1, 1, 1, 1, 1, 1] [] false) = some ⟨.ok, 9, 0⟩ := by decide
/-- R140, example. -/
theorem test_hpush_stores : (nextOf (exec (.hpush 6) State.reset)).map (fun t => (t.lfg.seedHist.read 0, t.lfg.hlen)) =
    some (6, 1) := by decide
/-- R141, example. -/
theorem test_hclr : (nextOf (exec .hclr running)).map (fun t => (t.lfg.hlen, t.lfg.valid)) = some (0, false) := by decide
/-- V-SH-4, V-SH-15: ADV of an engine not constructed. -/
theorem test_adv_not_constructed : answer .advWh State.reset = some ⟨.notConstructed, 0, 0⟩ := by decide

/-- The word memory keeps its canonical form: writing the value an unlisted word reads as removes the entry. -/
theorem test_write_unlisted : WordMem.write [(1, 5), (3, 7)] 1 0 = [(3, 7)] ∧ WordMem.write [(1, 5)] 0 2 = [(0, 2), (1, 5)] := by
  decide

/-! ## The assembler (R68, R69) -/

/-- P5, the INIT line. -/
theorem test_assemble_init : assembleLine "init leh, ZX81, 1 ; comment".toList =
    some [.ldpreLeh .zx81, .wrcfg (.leh .seed) 1, .consLeh] := by decide
/-- V-SH-2's operand. -/
theorem test_assemble_value : value? "2^64-0X1".toList = some 0xFFFFFFFFFFFFFFFF := by decide
/-- What R68 leaves open: a first sign, case and separators in numbers, the text of an illegal word (log 14, the model's
choice). -/
theorem test_assemble_open : value? "-1+2".toList = none ∧ value? "1_000".toList = none ∧
    assembleLine "HPUSH 0XaB".toList = some [.hpush 0xAB] ∧ assembleLine "WRCFG LFG.HLEN, 5".toList = none ∧
    assembleLine "LDPRE LEH, POSIX".toList = none := by decide

/-! ## The invariant in the helper's state -/

theorem running_inv : running.Inv := by
  refine ⟨?_, ⟨by decide, by decide, by decide, by decide, by decide, by decide⟩, by decide⟩
  intro e
  cases e <;> decide

/-! ## Witnesses: states and operands that meet each obligation's hypotheses -/

theorem witness_DecodingAnEncodedCommandGivesItBack :
    (Instr.wrcfg (.lcg .obr) 0xFFFFFFFFFFFFFFFF).wf = true ∧ (Instr.ldpreLeh .zx81).wf = true ∧ (Instr.hpush 0).wf = true := by
  decide
theorem witness_EncodingADecodedCommandGivesTheWordBack :
    decode ⟨0x06200000, 6⟩ = .ok (.hpush 6) ∧ (decode ⟨0x05000000, 6⟩ = .ok .advLcg ∧ Instr.advLcg.usesData = false) :=
  ⟨rfl, rfl, rfl⟩
theorem witness_TheLegalWordsAreThe67OfTheTable :
    (0x07200000 : CmdWord) ∈ legalWords ∧ (0x01200400 : CmdWord) ∉ legalWords ∧
      (State.reset.withHost [.command ⟨0x01200400, 5⟩]).host = .command ⟨0x01200400, 5⟩ :: [] := by decide
theorem witness_EveryLegalWordHasTheOneLayout : (Instr.rdcfg (.wh .seed2)).wf = true := by decide
theorem witness_AStepRunsTheDecodedCommand :
    (presents .advLfg running).host = .command (encode .advLfg) :: [] ∧ decode (encode .advLfg) = .ok .advLfg := ⟨rfl, rfl⟩
theorem witness_ResetEventsResetAndIdleStepsHold :
    running.host = [] ∧ (running.withHost [.reset, .reset]).host = .reset :: [.reset] := by decide
theorem witness_AFailureIsAResponseAndNothingElse :
    ∃ t, (presents .advWh State.reset).host = .command (encode .advWh) :: [] ∧ step (presents .advWh State.reset) = .next t ∧
      t.rsp = some ⟨.notConstructed, 0, 0⟩ := ⟨_, rfl, rfl, rfl⟩
theorem witness_WhichCommandsFailAndHow_word :
    ∃ t, (running.withHost [.command ⟨0x08000000, 0⟩]).host = .command ⟨0x08000000, 0⟩ :: [] ∧
      step (running.withHost [.command ⟨0x08000000, 0⟩]) = .next t ∧ (0x08000000 : CmdWord) ∉ legalWords :=
  ⟨_, rfl, rfl, by decide⟩
theorem witness_WhichCommandsFailAndHow_cons :
    ∃ t, Instr.consWh.wf = true ∧ exec .consWh State.reset = .next t ∧ t.rsp = some ⟨.whSeedRange, 0, 0⟩ := ⟨_, rfl, rfl, rfl⟩
theorem witness_WhichCommandsFailAndHow_adv :
    ∃ t, Instr.advMsq.wf = true ∧ exec .advMsq State.reset = .next t ∧ t.rsp = some ⟨.notConstructed, 0, 0⟩ := ⟨_, rfl, rfl, rfl⟩
theorem witness_ValidIsSetByConsAndClearedByConfiguration :
    (∃ t, (running.withHost [.reset]).host = .reset :: [] ∧ step (running.withHost [.reset]) = .next t) ∧
    (∃ t, exec .consMsq State.reset = .next t ∧ t.rsp = some ⟨.ok, 0, 0⟩) ∧
    (∃ t, (Instr.wrcfg (.lcg .inc) 5).wf = true ∧ exec (.wrcfg (.lcg .inc) 5) running = .next t ∧ running.valid .lcg = true) ∧
    ∃ t, exec .advLeh running = .next t ∧ Instr.advLeh.engine ≠ .wh :=
  ⟨⟨_, rfl, rfl⟩, ⟨_, rfl, rfl⟩, ⟨_, rfl, rfl, rfl⟩, _, rfl, by decide⟩
theorem witness_ConfigurationIsWrittenOnlyByItsCommands :
    (∃ t, exec (.ldpreLeh .randu) running = .next t ∧ t.readCfg (.leh .mod) ≠ running.readCfg (.leh .mod)) ∧
    (∃ t, exec .hclr running = .next t ∧ t.lfg.hlen ≠ running.lfg.hlen) ∧
    ∃ t, exec (.hpush 5) running = .next t ∧ t.lfg.seedHist ≠ running.lfg.seedHist := by
  refine ⟨⟨_, rfl, ?_⟩, ⟨_, rfl, ?_⟩, _, rfl, ?_⟩ <;> decide
theorem witness_StateRegistersAreWrittenOnlyByConsAndAdv :
    (∃ t, exec .advMsq running = .next t ∧ ¬ t.sameRegs running .msq) ∧
    ∃ t, exec .consLeh (withLeh 7 3 5 0 false) = .next t ∧ ¬ t.sameRegs (withLeh 7 3 5 0 false) .leh := by
  refine ⟨⟨_, rfl, ?_⟩, _, rfl, ?_⟩ <;> simp only [State.sameRegs] <;> decide
theorem witness_EnginesAreIndependent :
    (∃ t, exec .advLeh running = .next t) ∧ (∃ t, exec .advLeh (withLeh 7 3 1 1 true) = .next t) ∧
      (withLeh 7 3 1 1 true).sameEngine running .leh ∧ (withLeh 7 3 1 1 true).params = running.params :=
  ⟨⟨_, rfl⟩, ⟨_, rfl⟩, rfl, rfl⟩
/-- Two lists with different commands to other engines in between, and two different pasts. -/
theorem witness_ASequenceIsDeterminedByItsConfiguration :
    toEngine .leh [.consLeh, .advLcg, .advLeh, .hclr, .advLeh] = .cons .leh :: List.replicate 2 (.adv .leh) ∧
    toEngine .leh [.hclr, .consLeh, .advLeh, .advLeh] = .cons .leh :: List.replicate 2 (.adv .leh) ∧
    running.Inv ∧ ({ running with leh := { running.leh with x := 6 } } : State).Inv ∧
    running.sameConfig { running with leh := { running.leh with x := 6 } } .leh := by
  refine ⟨by decide, by decide, running_inv, ⟨?_, ⟨by decide, by decide, by decide, by decide, by decide, by decide⟩, by decide⟩, rfl⟩
  intro e
  cases e <;> decide
theorem witness_ConsRestartsTheSequence :
    running.Inv ∧ ∃ t, runAll (.cons .lfsr :: List.replicate 3 (.adv .lfsr)) running = some t := ⟨running_inv, _, rfl⟩
/-- Two states that differ in a state register of an engine not constructed and in a word of SEEDHIST above HLEN. -/
theorem witness_UnspecifiedCellsAreNeverObserved :
    ∃ s', State.reset.sameButUnspecified
        { State.reset with leh := { State.reset.leh with x := 5 }, lfg := { State.reset.lfg with seedHist := [(0, 9)], hist := [3] } } ∧
      step State.reset = .next s' ∧ State.reset.lfg.seedHist.wf = true ∧ WordMem.wf [(0, 9)] = true := by
  refine ⟨_, ⟨rfl, rfl, rfl, ?_⟩, rfl, rfl, by decide⟩
  intro e
  cases e <;> simp [State.valid, State.sameConfig, State.samePushed, State.reset, State.resetOf]
theorem witness_TheInvariantHoldsAtReset : 2 ≤ (Params.mk 2 (.other 0)).kmax := by decide
theorem witness_StepsKeepTheInvariant :
    ∃ t, (presents .advLcg running).Inv ∧ step (presents .advLcg running) = .next t := by
  refine ⟨_, ⟨?_, ⟨by decide, by decide, by decide, by decide, by decide, by decide⟩, by decide⟩, rfl⟩
  intro e
  cases e <;> decide
theorem witness_ReachableStatesAreSound : Reachable ((State.resetOf ⟨2, .other 7⟩).withHost [.command ⟨0x04400000, 0⟩, .reset]) :=
  .reset _ _ (by decide)
theorem witness_ConsCannotFailWhileConstructed :
    ∃ t, running.Inv ∧ running.valid .lfg = true ∧ exec (.cons .lfg) running = .next t := ⟨_, running_inv, rfl, rfl⟩
theorem witness_NoIntermediateOverflows :
    running.Inv ∧ running.lcg.valid = true ∧ running.leh.valid = true ∧ running.lfg.valid = true ∧ running.msq.valid = true ∧
      running.wh.valid = true := ⟨running_inv, rfl, rfl, rfl, rfl, rfl⟩
/-- No cell, and no writable cell, has ENG 1 (LEH) and IDX 2. -/
theorem no_cell_leh_2 (r : CfgReg) : ¬ (r.engine.num = 1 ∧ r.index = 2) := by
  rcases r with r | r | r | r | r | r <;> cases r <;> decide
theorem witness_WrcfgStoresTheWordAndClearsValid :
    CfgReg.lfg .k ≠ .lfg .hlen ∧ (∀ r : CfgReg, r ≠ .lfg .hlen → ¬ (r.engine.num = 1 ∧ r.index = 2)) ∧
      (running.withHost [.command ⟨0x01100200, 5⟩]).host = .command ⟨BitVec.ofNat 32 (0x01000000 + 1 * 2 ^ 20 + 2 * 2 ^ 8), 5⟩ :: [] :=
  ⟨by decide, fun r _ => no_cell_leh_2 r, by decide⟩
theorem witness_RdcfgAnswersTheRegister :
    (∀ r : CfgReg, ¬ (r.engine.num = 1 ∧ r.index = 2)) ∧
      (running.withHost [.command ⟨0x02100200, 0⟩]).host = .command ⟨BitVec.ofNat 32 (0x02000000 + 1 * 2 ^ 20 + 2 * 2 ^ 8), 0⟩ :: [] :=
  ⟨no_cell_leh_2, by decide⟩
theorem witness_LdpreLoadsTheRow :
    Preset.zx81.num.toNat ≤ 3 ∧ 3 < Preset.borland.num.toNat ∧ 8 ≤ (8 : BitVec 8).toNat ∧ 4 ≤ (4 : BitVec 8).toNat ∧
      (running.withHost [.command ⟨0x03000800, 0⟩]).host = .command ⟨BitVec.ofNat 32 (0x03000000 + 8 * 2 ^ 8), 0⟩ :: [] ∧
      (running.withHost [.command ⟨0x03100400, 0⟩]).host = .command ⟨BitVec.ofNat 32 (0x03100000 + 4 * 2 ^ 8), 0⟩ :: [] := by decide
theorem witness_AfterAPresetOnlyTheSeedCanFail :
    (∃ t, exec (.ldpreLcg .posix) running = .next t ∧ running.lcg.cfg.seed.toNat < (rom .posix).modulus.toNat) ∧
    (∃ t, exec (.ldpreLcg .zx81) (withLcg 0 0 0 65537 0 0 false) = .next t ∧ ¬ 65537 < (rom .zx81).modulus.toNat) ∧
    ∃ t, Preset.zx81.num.toNat ≤ 3 ∧ exec (.ldpreLeh .zx81) running = .next t := by
  refine ⟨⟨_, rfl, ?_⟩, ⟨_, rfl, ?_⟩, _, ?_, rfl⟩ <;> decide
theorem witness_ConsSucceedsExactlyWhenAllChecksHold :
    (∀ c ∈ running.checks .lcg, c.1 = true) ∧
    (withLcg 10 3 10 12 0 0 false).checks .lcg =
      [(true, .mulRange)] ++ (false, .incRange) :: ((withLcg 10 3 10 12 0 0 false).checks .lcg).drop 2 := by decide
theorem witness_AdvOfAnUnconstructedEngineFails : State.reset.valid .lfsr = false := by decide
/-- A state with an output range (START 1, END 4) and one without. -/
theorem witness_AdvLcgMultipliesAddsAndExtracts :
    (running.lcg.valid = true ∧ 1 ≤ running.lcg.cfg.mod.toNat ∧ running.lcg.cfg.obr.toNat % 2 = 1 ∧
      running.lcg.cfg.obr.toNat / 2 ^ 8 % 2 ^ 8 < running.lcg.cfg.obr.toNat / 2 ^ 16 % 2 ^ 8) ∧
    ((withLcg 10 3 4 5 0 5 true).lcg.cfg.obr.toNat % 2 = 0 ∧ 1 ≤ (withLcg 10 3 4 5 0 5 true).lcg.cfg.mod.toNat) := by decide
theorem witness_AdvLehMultiplies :
    running.leh.valid = true ∧ 1 ≤ running.leh.cfg.mod.toNat ∧ (withLeh 7 3 0 0 true).leh.x = 0 := by decide
theorem witness_LcgWithoutIncrementIsLehmer :
    let s : State := { withLeh 7 3 1 1 true with lcg := (withLcg 7 3 0 1 0 1 true).lcg }
    s.lcg.cfg.inc = 0 ∧ s.lcg.cfg.obr.toNat % 2 = 0 ∧ s.lcg.cfg.mod = s.leh.cfg.mod ∧ s.lcg.cfg.mul = s.leh.cfg.mul ∧
      s.lcg.valid = true ∧ s.leh.valid = true ∧ s.lcg.x = s.leh.x := by decide
/-- For each of the four operators; the taps are 2 and 3, so the difference is negative. -/
theorem witness_AdvLfgCombinesAndAppends :
    ∀ op : Fin 4, let s := withLfg 10 3 7 (BitVec.ofNat 64 op) [6, 4, 2, 1, 8, 9, 3] [6, 4, 2, 1, 8, 9, 3] true
      s.lfg.valid = true ∧ s.lfg.row s.params.kmax ∧ s.lfg.hist[s.lfg.cfg.j.toNat - 1]? = some 2 ∧
        s.lfg.hist[s.lfg.cfg.k.toNat - 1]? = some 3 ∧ s.lfg.cfg.op.toNat = op := by decide
theorem witness_AfterKAdvancesTheHistoryIsReduced :
    ∃ t, (withLfg 10 1 2 0 [99, 98] [99, 98] true).lfg.row 8 ∧
      runAll (List.replicate 2 .advLfg) (withLfg 10 1 2 0 [99, 98] [99, 98] true) = some t := ⟨_, by decide, rfl⟩
theorem witness_TheRingRefinesTheHistory :
    (HistRing.mk [3, 5] 1).wf = true ∧ 1 ≤ (⟨7, 1, 2, 1⟩ : LfgCfg).j.toNat ∧
      (⟨7, 1, 2, 1⟩ : LfgCfg).j.toNat < (⟨7, 1, 2, 1⟩ : LfgCfg).k.toNat ∧
      (⟨7, 1, 2, 1⟩ : LfgCfg).k.toNat = (HistRing.mk [3, 5] 1).words.length := by decide
/-- With room for one word, with none, and saturated. -/
theorem witness_HpushAppendsOrSaturates :
    ((withLfg 0 0 0 0 [1, 1, 1, 1, 1, 1, 1] [] false).lfg.seedHist.wf = true ∧
      (withLfg 0 0 0 0 [1, 1, 1, 1, 1, 1, 1] [] false).lfg.hlen < State.reset.params.kmax) ∧
    (State.reset.params.kmax ≤ (withLfg 0 0 0 0 [1, 1, 1, 1, 1, 1, 1, 1] [] false).lfg.hlen ∧
      (withLfg 0 0 0 0 [1, 1, 1, 1, 1, 1, 1, 1] [] false).lfg.seedHist.wf = true) := by decide
theorem witness_HloadThenConsGivesTheHistory :
    ∃ is t, (withLfg 10 1 2 1 [7, 7, 7] [] false).lfg.seedHist.wf = true ∧
      ([3, 5] : List Word).length ≤ (withLfg 10 1 2 1 [7, 7, 7] [] false).params.kmax ∧ (Pseudo.hload [3, 5]).expand = some is ∧
      runAll is (withLfg 10 1 2 1 [7, 7, 7] [] false) = some t ∧
      (let c := (withLfg 10 1 2 1 [7, 7, 7] [] false).lfg.cfg;
      c.k.toNat = ([3, 5] : List Word).length ∧ 1 ≤ c.j.toNat ∧ c.j.toNat < ([3, 5] : List Word).length ∧ 1 ≤ c.mod.toNat ∧
        c.op.toNat ≤ 3) :=
  ⟨_, _, by decide, by decide, rfl, rfl, by decide⟩
theorem witness_AdvLfsrShiftsAndXors : running.lfsr.valid = true ∧ (withLfsr 2 3 2 true).lfsr.valid = true := by decide
/-- Both sides: 7 goes to 0 under mask 3, and 6 does not. -/
theorem witness_WhenTheLfsrReachesZero : (7 : Reg32) ≠ 0 ∧ lfsrNext ⟨7, 3⟩ 7 = 0 ∧ lfsrNext ⟨7, 3⟩ 6 ≠ 0 := by decide
/-- A square of 0, a square of nine digits with n = 2, and n = 0. -/
theorem witness_AdvMsqTakesTheMiddleDigits :
    (let s := withMsq 0 2 0 0 true;
      s.msq.valid = true ∧ s.msq.cfg.digits.toNat ≤ 19 ∧ s.msq.x.toNat * s.msq.x.toNat = 0) ∧
    (let s := withMsq 12345 2 0 12345 true;
      s.msq.valid = true ∧ s.msq.cfg.digits.toNat ≤ 19 ∧ 10 ^ (9 - 1) ≤ s.msq.x.toNat * s.msq.x.toNat ∧
        s.msq.x.toNat * s.msq.x.toNat < 10 ^ 9) ∧
    (let s := withMsq 9 0 0 9 true;
      s.msq.valid = true ∧ s.msq.cfg.digits.toNat = 0 ∧ 10 ^ (2 - 1) ≤ s.msq.x.toNat * s.msq.x.toNat ∧
        s.msq.x.toNat * s.msq.x.toNat < 10 ^ 2) := by decide
theorem witness_MidReadsTheMiddleOfTheRenderedSquare : 1 ≤ 2 ∧ mid 121 2 = 12 := by decide
theorem witness_TheSteadyStateMiddleSquare :
    (1 ≤ 3 ∧ 999 < 10 ^ 3) ∧ ∃ t, running.msq.valid = true ∧ running.msq.cfg.digits.toNat ≤ 19 ∧ exec .advMsq running = .next t :=
  ⟨by decide, _, rfl, by decide, rfl⟩
theorem witness_AdvWhAnswersBeforeItMoves :
    running.wh.valid = true ∧ running.wh.row ∧ (withWh 1 1 1 30268 30306 30322 true).wh.row := by decide
theorem witness_TheNumeratorIsTheExactFraction : ∃ t, running.wh.valid = true ∧ exec .advWh running = .next t := ⟨_, rfl, rfl⟩
/-- A pair of the map, the read-only pair, and a pair of no cell. -/
theorem witness_TheAddressMapIsComplete :
    ((2 : BitVec 4).toNat, (4 : BitVec 8).toNat, CfgReg.lfg .hlen) ∈ [(2, 3, CfgReg.lfg .op), (2, 4, .lfg .hlen)] ∧
      ((1 : BitVec 4).toNat, (3 : BitVec 8).toNat, CfgReg.leh .seed) ∈ [(1, 3, CfgReg.leh .seed)] ∧
      ∀ r : CfgReg, ¬ (r.engine.num = 1 ∧ r.index = 2) := ⟨by decide, by decide, no_cell_leh_2⟩
theorem witness_AdvCommandsOfEnginesNotConstructed :
    State.reset.lcg.valid = false ∧ State.reset.leh.valid = false ∧ State.reset.lfg.valid = false ∧
      State.reset.lfsr.valid = false ∧ State.reset.msq.valid = false ∧ State.reset.wh.valid = false := by decide
/-- A register of each end, and sums at the low end of the range and near the high one: 1 / 2^64 + 0, and 2^51 + 3 / 2. -/
theorem witness_TheDefaultFloatRoundsAndIsBelowOne :
    ((1 : Reg15) ≠ 0 ∧ (0x7FFF : Reg15) ≠ 0) ∧
      (1 / 2 ^ 64 ≤ (⟨1, 64⟩ : Scaled).value + (⟨0, 0⟩ : Scaled).value ∧
        (⟨1, 64⟩ : Scaled).value + (⟨0, 0⟩ : Scaled).value < 2 ^ 52) ∧
      (1 / 2 ^ 64 ≤ (⟨2 ^ 51, 0⟩ : Scaled).value + (⟨3, 1⟩ : Scaled).value ∧
        (⟨2 ^ 51, 0⟩ : Scaled).value + (⟨3, 1⟩ : Scaled).value < 2 ^ 52) :=
  ⟨by decide, by norm_num [Scaled.value], by norm_num [Scaled.value]⟩
/-- A command accepted with two more clocks of latency, and the host idle meanwhile. -/
theorem witness_AnAcceptedCommandIsAnswered :
    (Port.mk running none 0).ready = true ∧ (Pins.mk false true 0x05500000 0).rst = false ∧
      (Pins.mk false true 0x05500000 0).cmdValid = true ∧
      (∀ j ∈ List.replicate 3 (Pins.mk false false 0 0), j.rst = false) ∧
      (List.replicate 3 (Pins.mk false false 0 0)).length = (fun _ : Nat => 2) (Port.mk running none 0).accepted + 1 := by
  decide
theorem witness_ResetAbandonsTheCommandInFlight :
    (Pins.mk true true 0x05500000 0).rst = true ∧ (Port.mk running (some (⟨0x05500000, 0⟩, 1)) 1).inFlight ≠ none := by decide
/-- Each of the five edges: a command with a clock left, nothing in flight and nothing presented, reset, a command with none left,
a response presented. -/
theorem witness_ClockEdgesRunTheCommandLevelStep :
    ((Port.mk running (some (⟨0x05500000, 0⟩, 1)) 1).clock (fun _ => 2) ⟨false, false, 0, 0⟩).inFlight = some (⟨0x05500000, 0⟩, 0) ∧
      ((Port.mk running none 0).clock (fun _ => 2) ⟨false, true, 0x05500000, 0⟩).inFlight = some (⟨0x05500000, 0⟩, 2) ∧
      ((Port.mk running (some (⟨0x05500000, 0⟩, 1)) 1).clock (fun _ => 2) ⟨true, false, 0, 0⟩).core.wh.valid = false ∧
      ((Port.mk running (some (⟨0x02000000, 0⟩, 0)) 1).clock (fun _ => 2) ⟨false, false, 0, 0⟩).core.rsp = some ⟨.ok, 100, 0⟩ ∧
      ((Port.mk { running with rsp := some ⟨.ok, 1, 0⟩ } none 1).clock (fun _ => 2) ⟨false, true, 0x05500000, 0⟩).core.rsp = none := by
  refine ⟨rfl, rfl, rfl, rfl, rfl⟩

end Sys2Proof.Tests
end

section
/-! What one command and one step can do, said once: `Executes` lists the outcomes of `exec` with their guards, and every fact
about commands below is a case analysis of it. -/

namespace Sys2Proof.Machine

/-- What a command can do to a state: every way it completes, with the guard of each (R64, R84, R86, R200). -/
inductive Executes (s : State) : Instr → State → Prop
  /-- A term that stands for no legal word is answered ILLEGAL_CMD (log 9). -/
  | illFormed (i : Instr) (h : i.wf = false) : Executes s i (s.fail .illegalCmd)
  | wrcfg (r : CfgReg) (v : Word) (h : r.writable = true) :
      Executes s (.wrcfg r v) (((s.writeCfg v r).clearValid r.engine).ok 0 0)
  | rdcfg (r : CfgReg) : Executes s (.rdcfg r) (s.ok (s.readCfg r) 0)
  | ldpreLcg (p : Preset) :
      Executes s (.ldpreLcg p) (({ s with lcg := { s.lcg with cfg := s.lcg.cfg.load p, valid := false } } : State).ok 0 0)
  | ldpreLeh (p : Preset) (h : p.forLehmer = true) :
      Executes s (.ldpreLeh p) (({ s with leh := { s.leh with cfg := s.leh.cfg.load p, valid := false } } : State).ok 0 0)
  | consFails (e : Engine) (cause : Status) (h : firstFailing (s.checks e) = some cause) :
      Executes s (.cons e) (s.fail cause)
  | cons (e : Engine) (h : firstFailing (s.checks e) = none) : Executes s (.cons e) ((s.built e).ok 0 0)
  | advFails (e : Engine) (h : s.valid e = false) : Executes s (.adv e) (s.fail .notConstructed)
  | adv (e : Engine) (h : s.valid e = true) : Executes s (.adv e) ((s.moved e).ok (s.output e).1 (s.output e).2)
  | hpush (v : Word) :
      Executes s (.hpush v) (({ s with lfg := s.lfg.push s.params.kmax v } : State).ok
        (BitVec.ofNat 64 (s.lfg.push s.params.kmax v).hlen) 0)
  | hclr : Executes s .hclr (({ s with lfg := { s.lfg with hlen := 0, valid := false } } : State).ok 0 0)

/-- A term that stands for no legal word is refused (log 9). -/
theorem exec_of_not_wf (i : Instr) (s : State) (h : i.wf = false) : exec i s = .next (s.fail .illegalCmd) := by
  cases i
  case wrcfg r v => exact if_neg (Bool.eq_false_iff.1 h)
  case ldpreLeh p => exact if_neg (Bool.eq_false_iff.1 h)
  all_goals cases h

theorem Executes.exec_eq {i : Instr} {s t : State} (h : Executes s i t) : exec i s = .next t := by
  cases h with
  | illFormed _ hw => exact exec_of_not_wf i s hw
  | wrcfg r v hr => exact if_pos hr
  | rdcfg r => rfl
  | ldpreLcg p => rfl
  | ldpreLeh p hp => exact if_pos hp
  | consFails e cause hc => simp [exec_cons, construct, hc]
  | cons e hc => simp [exec_cons, construct, hc]
  | advFails e hv => simp [exec_adv, advance, hv]
  | adv e hv => simp [exec_adv, advance, hv]
  | hpush v => rfl
  | hclr => rfl

/-- No outcome is missing: every command completes in one of the ways listed. -/
theorem exists_executes (i : Instr) (s : State) : ∃ t, Executes s i t := by
  obtain ⟨e, rfl⟩ | ⟨e, rfl⟩ | ⟨r, v, rfl⟩ | ⟨r, rfl⟩ | ⟨p, rfl⟩ | ⟨p, rfl⟩ | ⟨v, rfl⟩ | rfl := instr_cases i
  · cases hc : firstFailing (s.checks e) with
    | some cause => exact ⟨_, .consFails e cause hc⟩
    | none => exact ⟨_, .cons e hc⟩
  · cases hv : s.valid e with
    | false => exact ⟨_, .advFails e hv⟩
    | true => exact ⟨_, .adv e hv⟩
  · cases hr : r.writable with
    | false => exact ⟨_, .illFormed _ hr⟩
    | true => exact ⟨_, .wrcfg r v hr⟩
  · exact ⟨_, .rdcfg r⟩
  · exact ⟨_, .ldpreLcg p⟩
  · cases hp : p.forLehmer with
    | false => exact ⟨_, .illFormed _ hp⟩
    | true => exact ⟨_, .ldpreLeh p hp⟩
  · exact ⟨_, .hpush v⟩
  · exact ⟨_, .hclr⟩

/-- `exec` answers the next state `t` exactly when `t` is one of the outcomes listed. -/
theorem exec_eq_next_iff {i : Instr} {s t : State} : exec i s = .next t ↔ Executes s i t := by
  refine ⟨fun h => ?_, Executes.exec_eq⟩
  obtain ⟨u, hu⟩ := exists_executes i s
  obtain rfl : u = t := by simpa [hu.exec_eq] using h
  exact hu

/-! ## One step -/

theorem step_idle {s : State} (h : s.host = []) : step s = .next (idle s) := by
  simp only [step, h]

theorem step_reset {s : State} {es : List HostEvent} (h : s.host = .reset :: es) :
    step s = .next (resetEvent (s.withHost es)) := by
  simp only [step, h]

theorem step_command {s : State} {c : Command} {es : List HostEvent} (h : s.host = .command c :: es) :
    step s = accept c (s.withHost es) := by
  simp only [step, h]

theorem accept_ok {c : Command} {i : Instr} (h : decode c = .ok i) (s : State) : accept c s = exec i s := by
  simp only [accept, h]

theorem accept_error {c : Command} {x : Illegal} (h : decode c = .error x) (s : State) :
    accept c s = .next (s.fail .illegalCmd) := by
  simp only [accept, h, illegal]

/-- What a step can do: a step with nothing presented, a reset, an illegal word, or an outcome of the command decoded. -/
inductive Steps (s : State) : State → Prop
  | idle (h : s.host = []) : Steps s (idle s)
  | reset (es : List HostEvent) (h : s.host = .reset :: es) : Steps s (resetEvent (s.withHost es))
  | illegal (c : Command) (es : List HostEvent) (x : Illegal) (h : s.host = .command c :: es) (hd : decode c = .error x) :
      Steps s ((s.withHost es).fail .illegalCmd)
  | command (c : Command) (es : List HostEvent) (i : Instr) (t : State) (h : s.host = .command c :: es)
      (hd : decode c = .ok i) (hx : Executes (s.withHost es) i t) : Steps s t

theorem Steps.step_eq {s t : State} (h : Steps s t) : step s = .next t := by
  cases h with
  | idle h => exact step_idle h
  | reset es h => exact step_reset h
  | illegal c es x h hd => rw [step_command h, accept_error hd]
  | command c es i _ h hd hx => rw [step_command h, accept_ok hd, hx.exec_eq]

theorem exists_steps (s : State) : ∃ t, Steps s t := by
  rcases h : s.host with _ | ⟨c | _, es⟩
  · exact ⟨_, .idle h⟩
  · cases hd : decode c with
    | error x => exact ⟨_, .illegal c es x h hd⟩
    | ok i =>
      obtain ⟨t, hx⟩ := exists_executes i (s.withHost es)
      exact ⟨t, .command c es i t h hd hx⟩
  · exact ⟨_, .reset es h⟩

/-- `step` answers the next state `t` exactly when `t` is one of the outcomes listed. -/
theorem step_eq_next_iff {s t : State} : step s = .next t ↔ Steps s t := by
  refine ⟨fun h => ?_, Steps.step_eq⟩
  obtain ⟨u, hu⟩ := exists_steps s
  obtain rfl : u = t := by simpa [hu.step_eq] using h
  exact hu

end Sys2Proof.Machine

open Sys2Proof Sys2Proof.Machine

/-- Settles O7: the event is taken, then the decoded command runs. -/
theorem aStepRunsTheDecodedCommand : Obligations.AStepRunsTheDecodedCommand := by
  intro s c es i hh hd
  rw [step_command hh, accept_ok hd, State.withHost]

/-- Settles O10: the listed outcomes of a step leave no state out. -/
theorem everyStepAnswersANextState : Obligations.EveryStepAnswersANextState := by
  intro s
  obtain ⟨t, ht⟩ := exists_steps s
  exact ⟨t, ht.step_eq⟩

end

section
/-! R3, R49: what a command leaves unchanged, and that what it does depends on its own engine alone. -/

namespace Sys2Proof.Machine

/-! ## What a command leaves unchanged -/

theorem State.sameEngine_respond (s : State) (r : Response) (e : Engine) : (s.respond r).sameEngine s e := by
  cases e <;> rfl

theorem State.sameEngine_withHost (s : State) (es : List HostEvent) (e : Engine) : (s.withHost es).sameEngine s e := by
  cases e <;> rfl

theorem State.sameEngine_writeCfg {r : CfgReg} {e : Engine} (s : State) (v : Word) (h : e ≠ r.engine) :
    (s.writeCfg v r).sameEngine s e := by
  rcases r with r | r | r | r | r | r <;> cases r <;> cases e <;>
    simp [State.sameEngine, State.writeCfg, CfgReg.engine] at h ⊢

theorem State.sameEngine_clearValid {e e' : Engine} (s : State) (h : e' ≠ e) : (s.clearValid e).sameEngine s e' := by
  cases e <;> cases e' <;> simp [State.sameEngine, State.clearValid] at h ⊢

theorem State.sameEngine_built {e e' : Engine} (s : State) (h : e' ≠ e) : (s.built e).sameEngine s e' := by
  cases e <;> cases e' <;> simp [State.sameEngine, State.built] at h ⊢

theorem State.sameEngine_moved {e e' : Engine} (s : State) (h : e' ≠ e) : (s.moved e).sameEngine s e' := by
  cases e <;> cases e' <;> simp [State.sameEngine, State.moved] at h ⊢

@[simp] theorem State.built_host (s : State) (e : Engine) : (s.built e).host = s.host := by cases e <;> rfl
@[simp] theorem State.built_params (s : State) (e : Engine) : (s.built e).params = s.params := by cases e <;> rfl
@[simp] theorem State.moved_host (s : State) (e : Engine) : (s.moved e).host = s.host := by cases e <;> rfl
@[simp] theorem State.moved_params (s : State) (e : Engine) : (s.moved e).params = s.params := by cases e <;> rfl

@[simp] theorem Instr.engine_cons (e : Engine) : (Instr.cons e).engine = e := by cases e <;> rfl
@[simp] theorem Instr.engine_adv (e : Engine) : (Instr.adv e).engine = e := by cases e <;> rfl

/-- A command takes no event and changes no parameter. -/
theorem Executes.host_params {i : Instr} {s t : State} (h : Executes s i t) : t.host = s.host ∧ t.params = s.params := by
  cases h <;> simp

/-- A command changes nothing of any engine but its own (R3). -/
theorem Executes.frame {i : Instr} {s t : State} {e : Engine} (h : Executes s i t) (he : e ≠ i.engine) :
    t.sameEngine s e := by
  cases h with
  | illFormed | rdcfg | consFails | advFails => exact s.sameEngine_respond _ e
  | wrcfg r v =>
    exact State.sameEngine_trans (State.sameEngine_respond _ _ e)
      (State.sameEngine_trans (State.sameEngine_clearValid _ he) (s.sameEngine_writeCfg v he))
  | cons e' =>
    exact State.sameEngine_trans (State.sameEngine_respond _ _ e) (s.sameEngine_built (by simpa using he))
  | adv e' =>
    exact State.sameEngine_trans (State.sameEngine_respond _ _ e) (s.sameEngine_moved (by simpa using he))
  | ldpreLcg | ldpreLeh | hpush | hclr => cases e <;> simp [State.sameEngine, Instr.engine] at he ⊢

/-! ## What a command depends on -/

section Agree

variable {s s' : State} {e : Engine}

theorem State.sameEngine.respond {r r' : Response} (h : s'.sameEngine s e) : (s'.respond r').sameEngine (s.respond r) e :=
  State.sameEngine_trans (s'.sameEngine_respond r' e)
    (State.sameEngine_trans h (State.sameEngine_symm (s.sameEngine_respond r e)))

theorem State.sameEngine.valid_eq (h : s'.sameEngine s e) : s'.valid e = s.valid e := by
  cases s; cases s'; cases e <;> cases h <;> rfl

theorem State.sameEngine.checks_eq (h : s'.sameEngine s e) (hp : s'.params = s.params) : s'.checks e = s.checks e := by
  cases s; cases s'; cases hp; cases e <;> cases h <;> rfl

theorem State.sameEngine.built (h : s'.sameEngine s e) : (s'.built e).sameEngine (s.built e) e := by
  cases s; cases s'; cases e <;> cases h <;> rfl

theorem State.sameEngine.moved (h : s'.sameEngine s e) : (s'.moved e).sameEngine (s.moved e) e := by
  cases s; cases s'; cases e <;> cases h <;> rfl

theorem State.sameEngine.output_eq (h : s'.sameEngine s e) (hp : s'.params = s.params) : s'.output e = s.output e := by
  cases s; cases s'; cases hp; cases e <;> cases h <;> rfl

theorem State.sameEngine.clearValid (h : s'.sameEngine s e) : (s'.clearValid e).sameEngine (s.clearValid e) e := by
  cases s; cases s'; cases e <;> cases h <;> rfl

theorem State.sameEngine.readCfg_eq {r : CfgReg} (h : s'.sameEngine s r.engine) : s'.readCfg r = s.readCfg r := by
  cases s; cases s'; rcases r with r | r | r | r | r | r <;> cases h <;> cases r <;> rfl

theorem State.sameEngine.writeCfg {r : CfgReg} (v : Word) (h : s'.sameEngine s r.engine) :
    (s'.writeCfg v r).sameEngine (s.writeCfg v r) r.engine := by
  cases s; cases s'; rcases r with r | r | r | r | r | r <;> cases h <;> cases r <;> rfl

end Agree

/-- From states that agree on a command's engine and on the parameters, the command does the same to that engine and answers
the same (R3). -/
theorem Executes.congr {i : Instr} {s t s' : State} (h : Executes s i t) (he : s'.sameEngine s i.engine)
    (hp : s'.params = s.params) : ∃ t', Executes s' i t' ∧ t'.sameEngine t i.engine ∧ t'.rsp = t.rsp := by
  cases h with
  | illFormed _ hw => exact ⟨_, .illFormed i hw, he.respond, rfl⟩
  | wrcfg r v hr => exact ⟨_, .wrcfg r v hr, (he.writeCfg v).clearValid.respond, rfl⟩
  | rdcfg r => exact ⟨_, .rdcfg r, he.respond, by simp [he.readCfg_eq]⟩
  | ldpreLcg p =>
    have hlcg : s'.lcg = s.lcg := he
    exact ⟨_, .ldpreLcg p, by simp [Instr.engine, State.sameEngine, hlcg], rfl⟩
  | ldpreLeh p hl =>
    have hleh : s'.leh = s.leh := he
    exact ⟨_, .ldpreLeh p hl, by simp [Instr.engine, State.sameEngine, hleh], rfl⟩
  | consFails e cause hc =>
    rw [Instr.engine_cons] at he ⊢
    exact ⟨_, .consFails e cause (by rwa [he.checks_eq hp]), he.respond, rfl⟩
  | cons e hc =>
    rw [Instr.engine_cons] at he ⊢
    exact ⟨_, .cons e (by rwa [he.checks_eq hp]), he.built.respond, rfl⟩
  | advFails e hv =>
    rw [Instr.engine_adv] at he ⊢
    exact ⟨_, .advFails e (by rwa [he.valid_eq]), he.respond, rfl⟩
  | adv e hv =>
    rw [Instr.engine_adv] at he ⊢
    exact ⟨_, .adv e (by rwa [he.valid_eq]), he.moved.respond, by simp [he.output_eq hp]⟩
  | hpush v =>
    have hpush : s'.lfg.push s'.params.kmax v = s.lfg.push s.params.kmax v := by rw [hp, show s'.lfg = s.lfg from he]
    exact ⟨_, .hpush v, hpush, by simp [hpush]⟩
  | hclr =>
    have hlfg : s'.lfg = s.lfg := he
    exact ⟨_, .hclr, by simp [Instr.engine, State.sameEngine, hlfg], rfl⟩

/-! ## Interleaved commands -/

theorem responses_cons {i : Instr} {s t : State} (h : Executes s i t) (is : List Instr) :
    responses (i :: is) s = (i, t.rsp) :: responses is t := by
  simp only [responses, h.exec_eq]

/-- The responses to the commands of `e` in a list are those the commands of `e` get on their own, from any state that agrees
on `e` and on the parameters. -/
theorem fromEngine_responses {e : Engine} (is : List Instr) {s s' : State} (he : s'.sameEngine s e)
    (hp : s'.params = s.params) : fromEngine e (responses is s) = responses (toEngine e is) s' := by
  induction is generalizing s s' with
  | nil => rfl
  | cons i is ih =>
    obtain ⟨t, ht⟩ := exists_executes i s
    have htp := ht.host_params.2
    rw [responses_cons ht]
    by_cases hi : i.engine = e
    · subst hi
      obtain ⟨t', ht', hte, hrsp⟩ := ht.congr he hp
      have hrest := ih hte (by rw [ht'.host_params.2, hp, htp])
      simp only [fromEngine, toEngine] at hrest ⊢
      simp [responses_cons ht', hrest, hrsp]
    · have hrest := ih (State.sameEngine_trans he (State.sameEngine_symm (ht.frame (Ne.symm hi)))) (hp.trans htp.symm)
      simp only [fromEngine, toEngine] at hrest ⊢
      simp [hi, hrest]

end Sys2Proof.Machine

open Sys2Proof Sys2Proof.Machine

/-- Settles O17, by the frame of a command and its congruence in the engine it is addressed to. -/
theorem enginesAreIndependent : Obligations.EnginesAreIndependent := by
  intro i s t h
  have hx := exec_eq_next_iff.1 h
  refine ⟨fun e he => hx.frame he, hx.host_params.1, hx.host_params.2, fun s' t' hs hp h' => ?_⟩
  obtain ⟨u, hu, hsame, hrsp⟩ := hx.congr hs hp
  obtain rfl : u = t' := by simpa [hu.exec_eq] using h'
  exact ⟨hsame, hrsp⟩

/-- Settles O18: the list and its part for `e` start from the same state. -/
theorem interleavingDoesNotShowInAnEnginesResponses : Obligations.InterleavingDoesNotShowInAnEnginesResponses :=
  fun e is s => fromEngine_responses is (s.sameEngine_refl e) rfl

end

section
/-! R12, R19, R29, R40: the invariant, engine by engine, and that every step keeps it. -/

namespace Sys2Proof.Machine

/-! ## The invariant of one engine -/

/-- The row of R29 of an engine. -/
def State.row (s : State) : Engine → Prop
  | .lcg  => s.lcg.row
  | .leh  => s.leh.row
  | .lfg  => s.lfg.row s.params.kmax
  | .lfsr => s.lfsr.row
  | .msq  => s.msq.row
  | .wh   => s.wh.row

/-- What the invariant says of an engine: constructed, its configuration passes its checks (R12) and its row holds (R29). -/
def State.sound (s : State) (e : Engine) : Prop :=
  s.valid e = true → firstFailing (s.checks e) = none ∧ s.row e

theorem State.rows_iff (s : State) : s.rows ↔ ∀ e, s.valid e = true → s.row e :=
  ⟨fun ⟨lcg, leh, lfg, lfsr, msq, wh⟩ e => match e with
    | .lcg => lcg | .leh => leh | .lfg => lfg | .lfsr => lfsr | .msq => msq | .wh => wh,
   fun h => ⟨h .lcg, h .leh, h .lfg, h .lfsr, h .msq, h .wh⟩⟩

theorem State.inv_iff (s : State) : s.Inv ↔ (∀ e, s.sound e) ∧ s.seedBounds := by
  rw [State.Inv, State.rows_iff, ← and_assoc, ← forall_and]
  exact and_congr_left' (forall_congr' fun _ => imp_and.symm)

theorem State.sound_of_not_valid {s : State} {e : Engine} (h : s.valid e = false) : s.sound e :=
  fun hv => absurd hv (Bool.eq_false_iff.1 h)

theorem State.sameEngine.row_iff {s t : State} {e : Engine} (h : t.sameEngine s e) (hp : t.params = s.params) :
    t.row e ↔ s.row e := by
  cases s; cases t; cases hp; cases e <;> cases h <;> rfl

/-- What the invariant says of an engine depends on that engine and the parameters alone. -/
theorem State.sound.congr {s t : State} {e : Engine} (hs : s.sound e) (h : t.sameEngine s e) (hp : t.params = s.params) :
    t.sound e := by
  rw [State.sound, h.valid_eq, h.checks_eq hp, h.row_iff hp]
  exact hs

theorem State.sound.respond {s : State} {e : Engine} (hs : s.sound e) (r : Response) : (s.respond r).sound e :=
  hs.congr (s.sameEngine_respond r e) rfl

/-! ## A successful CONS establishes it -/

@[simp] theorem State.checks_built (s : State) (e : Engine) : (s.built e).checks e = s.checks e := by cases e <;> rfl

theorem Lcg.row_of_checks {c : LcgCfg} (h : firstFailing (lcgChecks c) = none) (v : Bool) : Lcg.row ⟨c, c.seed, v⟩ := by
  simp only [firstFailing_eq_none, lcgChecks, List.forall_mem_cons, decide_eq_true_eq, Bool.or_eq_true,
    Bool.not_eq_true'] at h
  obtain ⟨hmul, hinc, hseed, hres, hlt, hstart, hend, -⟩ := h
  refine ⟨Nat.one_le_of_lt hmul, hmul, hinc, hseed, fun hp => ?_⟩
  simp only [hp, Bool.true_eq_false, false_or] at hlt hstart hend
  exact ⟨hlt, hstart, hend, hres⟩

theorem Leh.row_of_checks {c : LehCfg} (h : firstFailing (lehChecks c) = none) (v : Bool) : Leh.row ⟨c, c.seed, v⟩ := by
  simp only [firstFailing_eq_none, lehChecks, List.forall_mem_cons, decide_eq_true_eq] at h
  obtain ⟨hmul, hseed, -⟩ := h
  exact ⟨Nat.one_le_of_lt hmul, hmul, hseed⟩

theorem Lfg.row_of_checks {k : Nat} {e : Lfg} (h : firstFailing (lfgChecks k e) = none) (v : Bool) :
    Lfg.row k { e with hist := e.seedHist.take e.cfg.k.toNat, valid := v } := by
  simp only [firstFailing_eq_none, lfgChecks, List.forall_mem_cons, decide_eq_true_eq] at h
  obtain ⟨⟨hj, hjk⟩, hlen, hk, hmod, hop, -⟩ := h
  exact ⟨hmod, hj, hjk, hk, hop, hlen, WordMem.take_length _ _⟩

theorem Lfsr.row_of_checks {e : Lfsr} (h : firstFailing (lfsrChecks e.cfg) = none) : e.row := by
  simp only [firstFailing_eq_none, lfsrChecks, List.forall_mem_cons, decide_eq_true_eq] at h
  obtain ⟨-, -, hmask, -⟩ := h
  exact hmask

theorem Msq.row_of_checks {c : MsqCfg} (h : firstFailing (msqChecks c) = none) (v : Bool) : Msq.row ⟨c, c.seed, v⟩ := by
  simp only [firstFailing_eq_none, msqChecks, List.forall_mem_cons, decide_eq_true_eq] at h
  obtain ⟨hwidth, hdigits, hseed, -⟩ := h
  exact ⟨hwidth, hdigits, hseed⟩

/-- A legal seed fits its 15-bit register (R185, R186). -/
theorem extractLsb'_toNat_of_whSeedOk {v : Word} (h : whSeedOk v = true) : (v.extractLsb' 0 15).toNat = v.toNat := by
  obtain ⟨-, hmax⟩ := of_decide_eq_true h
  rw [BitVec.extractLsb'_toNat, Nat.shiftRight_zero]
  exact Nat.mod_eq_of_lt (by omega)

theorem Wh.row_of_checks {c : WhCfg} (h : firstFailing (whChecks c) = none) (v : Bool) :
    Wh.row ⟨c, c.seed0.extractLsb' 0 15, c.seed1.extractLsb' 0 15, c.seed2.extractLsb' 0 15, v⟩ := by
  simp only [firstFailing_eq_none, whChecks, List.forall_mem_cons] at h
  obtain ⟨h0, h1, h2, -⟩ := h
  simp only [Wh.row, extractLsb'_toNat_of_whSeedOk h0, extractLsb'_toNat_of_whSeedOk h1, extractLsb'_toNat_of_whSeedOk h2]
  simp only [whSeedOk, decide_eq_true_eq] at h0 h1 h2
  omega

theorem State.row_built {s : State} {e : Engine} (h : firstFailing (s.checks e) = none) : (s.built e).row e :=
  match e with
  | .lcg  => Lcg.row_of_checks h true
  | .leh  => Leh.row_of_checks h true
  | .lfg  => Lfg.row_of_checks h true
  | .lfsr => Lfsr.row_of_checks h
  | .msq  => Msq.row_of_checks h true
  | .wh   => Wh.row_of_checks h true

theorem State.sound_built {s : State} {e : Engine} (h : firstFailing (s.checks e) = none) : (s.built e).sound e :=
  fun _ => ⟨by rwa [State.checks_built], State.row_built h⟩

/-! ## A successful ADV keeps it -/

@[simp] theorem State.checks_moved (s : State) (e : Engine) : (s.moved e).checks e = s.checks e := by cases e <;> rfl
@[simp] theorem State.valid_moved (s : State) (e : Engine) : (s.moved e).valid e = s.valid e := by cases e <;> rfl

theorem Lcg.row_next {e : Lcg} (h : e.row) : Lcg.row { e with x := lcgNext e.cfg e.x } := by
  obtain ⟨hmod, hmul, hinc, -, hobr⟩ := h
  exact ⟨hmod, hmul, hinc, by simpa [lcgNext_toNat _ _ hmod] using Nat.mod_lt _ hmod, hobr⟩

theorem Leh.row_next {e : Leh} (h : e.row) : Leh.row { e with x := lehNext e.cfg e.x } := by
  obtain ⟨hmod, hmul, -⟩ := h
  exact ⟨hmod, hmul, by simpa [lehNext_toNat _ _ hmod] using Nat.mod_lt _ hmod⟩

theorem Lfg.row_next {k : Nat} {e : Lfg} (h : e.row k) :
    Lfg.row k { e with hist := histAppend e.hist (lfgNext e.cfg e.hist) } := by
  obtain ⟨hmod, hj, hjk, hk, hop, hlen, hhist⟩ := h
  have hne : e.hist ≠ [] := List.length_pos_iff.1 (by omega)
  exact ⟨hmod, hj, hjk, hk, hop, hlen, by rw [histAppend_length _ _ hne, hhist]⟩

/-- As many decimal digits as R170 allows fit the register the width selects (R172). -/
theorem ten_pow_lt_two_pow_msqBits {width : Word} {n : Nat} (h : n ≤ msqDmax width) : 10 ^ n < 2 ^ msqBits width := by
  refine (Nat.pow_le_pow_right (by norm_num) h).trans_lt ?_
  unfold msqDmax msqBits
  split <;> norm_num

theorem msqBits_le (width : Word) : msqBits width ≤ 64 := by
  unfold msqBits
  split <;> norm_num

/-- The new seed is the exact middle of the square: it fits the register (R172). -/
theorem msqNext_toNat {c : MsqCfg} (h : c.digits.toNat ≤ msqDmax c.width) (x : Word) :
    (msqNext c x).toNat = mid (x.toNat * x.toNat) c.digits.toNat := by
  rw [msqNext, BitVec.toNat_ofNat]
  exact Nat.mod_eq_of_lt (((mid_lt _ _).trans (ten_pow_lt_two_pow_msqBits h)).trans_le
    (Nat.pow_le_pow_right (by norm_num) (msqBits_le _)))

theorem Msq.row_next {e : Msq} (h : e.row) : Msq.row { e with x := msqNext e.cfg e.x } := by
  obtain ⟨hwidth, hdigits, -⟩ := h
  refine ⟨hwidth, hdigits, ?_⟩
  rw [msqNext_toNat hdigits]
  exact (mid_lt _ _).trans (ten_pow_lt_two_pow_msqBits hdigits)

/-- A Wichmann-Hill register never becomes 0: its modulus is prime and divides neither factor (R188). -/
theorem whNext_bounds {a m : Nat} {s : Reg15} (hm : m.Prime) (hfit : m ≤ 2 ^ 15) (ha : 0 < a ∧ a < m)
    (hs : 1 ≤ s.toNat ∧ s.toNat ≤ m - 1) : 1 ≤ (whNext a m s).toNat ∧ (whNext a m s).toNat ≤ m - 1 := by
  have hpos := hm.pos
  rw [whNext_toNat a m s hpos hfit]
  have hlt := Nat.mod_lt (a * s.toNat) hpos
  have hne : a * s.toNat % m ≠ 0 := fun h0 => by
    rcases hm.dvd_mul.1 (Nat.dvd_of_mod_eq_zero h0) with h | h
    · exact absurd (Nat.le_of_dvd ha.1 h) (by omega)
    · exact absurd (Nat.le_of_dvd hs.1 h) (by omega)
  omega

theorem Wh.row_next {e : Wh} (h : e.row) : e.next.row := by
  obtain ⟨h0, h1, h2⟩ := h
  exact ⟨whNext_bounds (by norm_num) (by norm_num) (by norm_num) h0, whNext_bounds (by norm_num) (by norm_num) (by norm_num) h1,
    whNext_bounds (by norm_num) (by norm_num) (by norm_num) h2⟩

theorem State.row_moved {s : State} {e : Engine} (h : s.row e) : (s.moved e).row e :=
  match e with
  | .lcg  => Lcg.row_next h
  | .leh  => Leh.row_next h
  | .lfg  => Lfg.row_next h
  | .lfsr => h
  | .msq  => Msq.row_next h
  | .wh   => Wh.row_next h

theorem State.sound.moved {s : State} {e : Engine} (h : s.sound e) : (s.moved e).sound e := by
  intro hv
  rw [State.valid_moved] at hv
  obtain ⟨hchecks, hrow⟩ := h hv
  exact ⟨by rwa [State.checks_moved], State.row_moved hrow⟩

/-! ## Every command keeps it -/

/-- A command keeps what the invariant says of every engine: the others are left alone; its own is cleared by configuration,
checked by CONS and moved by ADV. -/
theorem Executes.sound {i : Instr} {s t : State} (h : Executes s i t) (hs : ∀ e, s.sound e) (e : Engine) : t.sound e := by
  by_cases he : e = i.engine
  · subst he
    cases h with
    | illFormed | rdcfg | consFails | advFails => exact (hs _).respond _
    | wrcfg r v => exact State.sound_of_not_valid (by simp [Instr.engine, State.valid_clearValid])
    | ldpreLcg | ldpreLeh | hpush | hclr => exact State.sound_of_not_valid rfl
    | cons e hc => rw [Instr.engine_cons]; exact (State.sound_built hc).respond _
    | adv e => rw [Instr.engine_adv]; exact (hs e).moved.respond _
  · exact (hs e).congr (h.frame he) h.host_params.2

@[simp] theorem State.built_hlen (s : State) (e : Engine) : (s.built e).lfg.hlen = s.lfg.hlen := by cases e <;> rfl
@[simp] theorem State.built_seedHist (s : State) (e : Engine) : (s.built e).lfg.seedHist = s.lfg.seedHist := by cases e <;> rfl
@[simp] theorem State.moved_hlen (s : State) (e : Engine) : (s.moved e).lfg.hlen = s.lfg.hlen := by cases e <;> rfl
@[simp] theorem State.moved_seedHist (s : State) (e : Engine) : (s.moved e).lfg.seedHist = s.lfg.seedHist := by cases e <;> rfl

/-- A push stores at an index below KMAX or not at all, and HLEN saturates (R140). -/
theorem State.seedBounds_push {s : State} (h : s.seedBounds) (v : Word) :
    State.seedBounds { s with lfg := s.lfg.push s.params.kmax v } := by
  obtain ⟨hk, hlen, hwf, hlt⟩ := h
  rcases Nat.lt_or_ge s.lfg.hlen s.params.kmax with hroom | hfull
  · simp only [State.seedBounds, Lfg.push_room _ _ v hroom]
    refine ⟨hk, by omega, WordMem.wf_write _ _ _ hwf, fun a ha => ?_⟩
    rcases WordMem.mem_write ha with rfl | ha
    · exact hroom
    · exact hlt a ha
  · simp only [State.seedBounds, Lfg.push_full _ _ v hfull]
    exact ⟨hk, le_rfl, hwf, hlt⟩

/-- A command keeps HLEN and SEEDHIST in their bounds: only HPUSH and HCLR touch them. -/
theorem Executes.seedBounds {i : Instr} {s t : State} (h : Executes s i t) (hs : s.seedBounds) : t.seedBounds := by
  cases h with
  | hpush v => exact State.seedBounds_push hs v
  | hclr =>
    obtain ⟨hk, -, hwf, hlt⟩ := hs
    exact ⟨hk, Nat.zero_le _, hwf, hlt⟩
  | illFormed | wrcfg | rdcfg | ldpreLcg | ldpreLeh | consFails | cons | advFails | adv => simpa [State.seedBounds] using hs

theorem Executes.inv {i : Instr} {s t : State} (h : Executes s i t) (hs : s.Inv) : t.Inv := by
  rw [State.inv_iff] at hs ⊢
  exact ⟨h.sound hs.1, h.seedBounds hs.2⟩

/-! ## Every step keeps it -/

theorem State.valid_resetOf (p : Params) (e : Engine) : (State.resetOf p).valid e = false := by cases e <;> rfl

/-- The invariant holds after reset (R30, R40). -/
theorem State.inv_resetOf {p : Params} (h : 2 ≤ p.kmax) : (State.resetOf p).Inv :=
  (State.inv_iff _).2 ⟨fun e => State.sound_of_not_valid (State.valid_resetOf p e), h, Nat.zero_le _, rfl,
    fun _ ha => absurd ha List.not_mem_nil⟩

/-- The invariant does not speak of the host's events or of the response. -/
theorem State.Inv.withHost {s : State} (h : s.Inv) (es : List HostEvent) : (s.withHost es).Inv := by
  rw [State.inv_iff] at h ⊢
  exact ⟨fun e => (h.1 e).congr (s.sameEngine_withHost es e) rfl, h.2⟩

theorem State.Inv.respond {s : State} (h : s.Inv) (r : Response) : (s.respond r).Inv := by
  rw [State.inv_iff] at h ⊢
  exact ⟨fun e => (h.1 e).respond r, h.2⟩

theorem State.sameEngine_idle (s : State) (e : Engine) : (idle s).sameEngine s e := by cases e <;> rfl

theorem State.Inv.idle {s : State} (h : s.Inv) : (Machine.idle s).Inv := by
  rw [State.inv_iff] at h ⊢
  exact ⟨fun e => (h.1 e).congr (s.sameEngine_idle e) rfl, h.2⟩

/-- Every step keeps the invariant. -/
theorem Steps.inv {s t : State} (h : Steps s t) (hs : s.Inv) : t.Inv := by
  cases h with
  | idle => exact hs.idle
  | reset es =>
    obtain ⟨-, -, hk, -⟩ := hs
    exact (State.inv_resetOf (p := s.params) hk).withHost es
  | illegal c es => exact (hs.withHost es).respond _
  | command c es i _ _ _ hx => exact hx.inv (hs.withHost es)

/-- The invariant holds at reset and every step keeps it: it holds of every state a block reaches. -/
theorem Reachable.inv {s : State} (h : Reachable s) : s.Inv := by
  induction h with
  | reset p es hk => exact (State.inv_resetOf hk).withHost es
  | after s t _ hs ih => exact (step_eq_next_iff.1 hs).inv ih

end Sys2Proof.Machine

open Sys2Proof Sys2Proof.Machine

/-- Settles O24, by induction on the run, with the invariant of each engine kept by every command. -/
theorem reachableStatesAreSound : Obligations.ReachableStatesAreSound :=
  fun s h => ⟨h.inv, everyStepAnswersANextState s⟩

end

section
/-! R2, R60, R231, R240: the clocked ports move the architectural state by the command-level step. -/

namespace Sys2Proof.Machine

/-- `drive` takes the step of the events it presents: a step is always answered (R4). -/
theorem step_withHost_eq_drive (es : List HostEvent) (s : State) : step (s.withHost es) = .next (drive es s) := by
  obtain ⟨t, ht⟩ := exists_steps (s.withHost es)
  simp only [drive, ht.step_eq]

section Clock

variable {lat : Nat → Nat} {p : Port} {i : Pins}

theorem Port.clock_reset (hr : i.rst = true) : p.clock lat i = { p with core := drive [.reset] p.core, inFlight := none } := by
  simp [Port.clock, hr]

theorem Port.clock_wait {c : Command} {n : Nat} (hr : i.rst = false) (hf : p.inFlight = some (c, n + 1)) :
    p.clock lat i = { p with inFlight := some (c, n) } := by
  simp [Port.clock, hr, hf]

theorem Port.clock_complete {c : Command} (hr : i.rst = false) (hf : p.inFlight = some (c, 0)) :
    p.clock lat i = { p with core := drive [.command c] p.core, inFlight := none } := by
  simp [Port.clock, hr, hf]

theorem Port.clock_presented (hr : i.rst = false) (hf : p.inFlight = none) (hp : p.core.rsp ≠ none) :
    p.clock lat i = { p with core := drive [] p.core } := by
  simp [Port.clock, hr, hf, Option.isSome_iff_ne_none.2 hp]

theorem Port.clock_accept (hr : i.rst = false) (hf : p.inFlight = none) (hp : p.core.rsp = none) :
    p.clock lat i =
      if i.cmdValid then { p with inFlight := some (i.command, lat p.accepted), accepted := p.accepted + 1 } else p := by
  simp [Port.clock, hr, hf, hp]

end Clock

end Sys2Proof.Machine

open Sys2Proof Sys2Proof.Machine

/-- Settles O60: one edge for each branch of the clock, on reset, on the command in flight and on the response presented. -/
theorem clockEdgesRunTheCommandLevelStep : Obligations.ClockEdgesRunTheCommandLevelStep := by
  intro lat p i
  cases hr : i.rst with
  | true =>
    refine .inr (.inr (.inl ⟨rfl, ?_⟩))
    rw [Port.clock_reset hr]
    exact step_withHost_eq_drive _ _
  | false =>
    rcases hf : p.inFlight with _ | ⟨c, _ | n⟩
    · by_cases hp : p.core.rsp = none
      · refine .inr (.inl ⟨rfl, rfl, hp, ?_⟩)
        rw [Port.clock_accept hr hf hp]
        split
        · exact ⟨rfl, rfl⟩
        · exact ⟨hf, rfl⟩
      · refine .inr (.inr (.inr (.inr ⟨rfl, rfl, hp, ?_⟩)))
        rw [Port.clock_presented hr hf hp]
        exact ⟨hf, step_withHost_eq_drive _ _⟩
    · refine .inr (.inr (.inr (.inl ⟨rfl, c, rfl, ?_⟩)))
      rw [Port.clock_complete hr hf]
      exact ⟨rfl, step_withHost_eq_drive _ _⟩
    · refine .inl ⟨rfl, ?_⟩
      rw [Port.clock_wait hr hf]
      exact ⟨⟨c, n, rfl, rfl⟩, rfl⟩

end

section
/-! R29, R30, R216, R230: the state after reset, and the invariant at reset and over a step. -/

namespace Sys2Proof.Machine

/-! ## Reset -/

theorem State.readCfg_resetOf (p : Params) (r : CfgReg) : (State.resetOf p).readCfg r = 0 := by
  rcases r with r | r | r | r | r | r <;> cases r <;> rfl

@[simp] theorem State.readCfg_withHost (s : State) (es : List HostEvent) (r : CfgReg) :
    (s.withHost es).readCfg r = s.readCfg r :=
  (s.sameEngine_withHost es r.engine).readCfg_eq

/-- A reset event leaves the reset state, with the host's later events still to come (R230). -/
theorem resetEvent_withHost (s : State) (es : List HostEvent) :
    resetEvent (s.withHost es) = (State.resetOf s.params).withHost es := rfl

end Sys2Proof.Machine

open Sys2Proof Sys2Proof.Machine

/-- Settles O23, by the outcomes of a step. -/
theorem stepsKeepTheInvariant : Obligations.StepsKeepTheInvariant :=
  fun _ _ hs h => (step_eq_next_iff.1 h).inv hs

/-- Settles O22: no engine is constructed after reset. -/
theorem theInvariantHoldsAtReset : Obligations.TheInvariantHoldsAtReset :=
  ⟨State.inv_resetOf (p := Config.defaultParams) (by decide), fun _ es h => (State.inv_resetOf h).withHost es⟩

/-- Settles O9: every flag and every cell of the reset state is 0. -/
theorem theResetStateIsAsR30Says : Obligations.TheResetStateIsAsR30Says :=
  ⟨State.valid_resetOf _, State.readCfg_resetOf _, rfl, rfl⟩

/-- Settles O8: the two steps that run no command. -/
theorem resetEventsResetAndIdleStepsHold : Obligations.ResetEventsResetAndIdleStepsHold := by
  refine ⟨fun s h => step_idle h, fun s es h => ⟨_, step_reset h, ?_⟩⟩
  rw [resetEvent_withHost]
  exact ⟨by simp [State.valid_resetOf], by simp [State.readCfg_resetOf], rfl, rfl, rfl, rfl⟩

end

section
/-! R11, R12, R13, R19, R42: which commands write VALID, the configuration and the state registers. -/

namespace Sys2Proof.Machine

/-! ## VALID -/

@[simp] theorem State.valid_built (s : State) (e : Engine) : (s.built e).valid e = true := by cases e <;> rfl

/-- A failing CONS does not answer OK (R84, R202). -/
theorem State.fail_checks_not_ok {s : State} {e : Engine} {c : Status} (h : firstFailing (s.checks e) = some c) (d a : Word) :
    (s.fail c).rsp ≠ some ⟨.ok, d, a⟩ := by
  have hc := Status.ne_ok_of_isConfigurationError c (checks_cause s e c h)
  simp [hc]

/-- The commands that write configuration (R12). -/
def configures : Instr → Bool
  | .wrcfg _ _ | .ldpreLcg _ | .ldpreLeh _ | .hpush _ | .hclr => true
  | .rdcfg _ => false
  | .consLcg | .consLeh | .consLfg | .consLfsr | .consMsq | .consWh => false
  | .advLcg | .advLeh | .advLfg | .advLfsr | .advMsq | .advWh => false

@[simp] theorem configures_cons (e : Engine) : configures (.cons e) = false := by cases e <;> rfl
@[simp] theorem configures_adv (e : Engine) : configures (.adv e) = false := by cases e <;> rfl

theorem Instr.adv_ne_cons (e e' : Engine) : Instr.adv e ≠ .cons e' := by cases e <;> cases e' <;> nofun
theorem Instr.wrcfg_ne_cons (r : CfgReg) (v : Word) (e : Engine) : Instr.wrcfg r v ≠ .cons e := by cases e <;> nofun
theorem Instr.rdcfg_ne_cons (r : CfgReg) (e : Engine) : Instr.rdcfg r ≠ .cons e := by cases e <;> nofun

/-- VALID of the engine a command is addressed to: a CONS that answers OK sets it, configuration clears it, and nothing else
changes it (R12). -/
theorem Executes.valid_engine {i : Instr} {s t : State} (h : Executes s i t) (hwf : i.wf = true) :
    t.valid i.engine =
      if i = .cons i.engine ∧ t.rsp = some ⟨.ok, 0, 0⟩ then true else if configures i then false else s.valid i.engine := by
  cases h with
  | illFormed _ hn => simp [hn] at hwf
  | wrcfg r v => simp [Instr.wrcfg_ne_cons, Instr.engine, configures, State.valid_clearValid]
  | rdcfg r => simp [Instr.rdcfg_ne_cons, configures]
  | ldpreLcg | ldpreLeh | hpush | hclr => rfl
  | consFails e c hc => simp [State.fail_checks_not_ok hc, -State.fail_rsp]
  | cons e => simp
  | advFails e | adv e => simp [Instr.adv_ne_cons]

/-- VALID of any engine after a command (R3, R12). -/
theorem Executes.valid_eq {i : Instr} {s t : State} (h : Executes s i t) (hwf : i.wf = true) (e : Engine) :
    t.valid e =
      if i = .cons e ∧ t.rsp = some ⟨.ok, 0, 0⟩ then true
      else if i.engine ≠ e then s.valid e
      else if configures i then false else s.valid e := by
  by_cases he : e = i.engine
  · subst he
    simpa using h.valid_engine hwf
  · have hi : i ≠ .cons e := by rintro rfl; simp at he
    simp [(h.frame he).valid_eq, hi, Ne.symm he]

/-! ## Configuration -/

@[simp] theorem State.readCfg_built (s : State) (e : Engine) (r : CfgReg) : (s.built e).readCfg r = s.readCfg r := by
  cases e <;> rcases r with r | r | r | r | r | r <;> cases r <;> rfl

@[simp] theorem State.readCfg_moved (s : State) (e : Engine) (r : CfgReg) : (s.moved e).readCfg r = s.readCfg r := by
  cases e <;> rcases r with r | r | r | r | r | r <;> cases r <;> rfl

/-- HPUSH and HCLR write no configuration register: HLEN is all of the configuration space they change (R140, R141). -/
theorem State.readCfg_of_lfg_cfg_eq (s : State) {e : Lfg} {r : CfgReg} (h : e.cfg = s.lfg.cfg) (hr : r ≠ .lfg .hlen) :
    State.readCfg { s with lfg := e } r = s.readCfg r := by
  rcases r with r | r | r | r | r | r
  case lfg =>
    cases r
    case hlen => exact absurd rfl hr
    all_goals simp only [State.readCfg, h]
  all_goals cases r <;> rfl

/-! ## State registers -/

theorem State.sameEngine.sameRegs {s t : State} {e : Engine} (h : t.sameEngine s e) : t.sameRegs s e := by
  cases s; cases t; cases e <;> cases h <;> simp [State.sameRegs]

theorem State.sameRegs_clearValid (s : State) (e e' : Engine) : (s.clearValid e).sameRegs s e' := by
  cases e <;> cases e' <;> simp [State.sameRegs, State.clearValid]

theorem State.sameRegs_writeCfg (s : State) (v : Word) (r : CfgReg) (e : Engine) : (s.writeCfg v r).sameRegs s e := by
  rcases r with r | r | r | r | r | r <;> cases r <;> cases e <;> simp [State.sameRegs, State.writeCfg]

theorem State.sameRegs_trans {s t u : State} {e : Engine} (h : s.sameRegs t e) (h' : t.sameRegs u e) : s.sameRegs u e := by
  cases e
  case wh =>
    obtain ⟨h0, h1, h2⟩ := h
    obtain ⟨h0', h1', h2'⟩ := h'
    exact ⟨h0.trans h0', h1.trans h1', h2.trans h2'⟩
  all_goals exact Eq.trans h h'

end Sys2Proof.Machine

open Sys2Proof Sys2Proof.Machine

/-- Settles O14: another engine's command leaves VALID, and the engine's own does as its kind says. -/
theorem validIsSetByConsAndClearedByConfiguration : Obligations.ValidIsSetByConsAndClearedByConfiguration := by
  refine ⟨fun s t e es hh h => ?_, fun i s t e hwf h => ?_⟩
  · obtain rfl : resetEvent (s.withHost es) = t := by simpa [step_reset hh] using h
    exact State.valid_resetOf s.params e
  · rw [(exec_eq_next_iff.1 h).valid_eq hwf]
    cases i <;> rfl

/-- Settles O15: every other command leaves the cell, HLEN or SEEDHIST as it is. -/
theorem configurationIsWrittenOnlyByItsCommands : Obligations.ConfigurationIsWrittenOnlyByItsCommands := by
  intro i s t r hwf h
  cases exec_eq_next_iff.1 h with
  | illFormed _ hn => simp [hn] at hwf
  | rdcfg | consFails | cons | advFails | adv => simp
  | wrcfg r' v =>
    refine ⟨fun hne => .inl ⟨v, ?_⟩, by simp, by simp⟩
    rcases eq_or_ne r r' with rfl | hr
    · rfl
    · simp [State.readCfg_writeCfg_other _ _ _ _ hr] at hne
  | ldpreLcg p =>
    refine ⟨fun hne => .inr (.inl ⟨?_, p, rfl⟩), by simp, by simp⟩
    by_contra he
    exact hne ((Executes.ldpreLcg p).frame he).readCfg_eq
  | ldpreLeh p hp =>
    refine ⟨fun hne => .inr (.inr (.inl ⟨?_, p, rfl⟩)), by simp, by simp⟩
    by_contra he
    exact hne ((Executes.ldpreLeh p hp).frame he).readCfg_eq
  | hpush v =>
    refine ⟨fun hne => .inr (.inr (.inr ⟨?_, .inl ⟨v, rfl⟩⟩)), fun _ => .inl ⟨v, rfl⟩, fun _ => ⟨v, rfl⟩⟩
    by_contra hr
    exact hne ((State.readCfg_ok _ _ _ r).trans (s.readCfg_of_lfg_cfg_eq rfl hr))
  | hclr =>
    refine ⟨fun hne => .inr (.inr (.inr ⟨?_, .inr rfl⟩)), fun _ => .inr rfl, by simp⟩
    by_contra hr
    exact hne ((State.readCfg_ok _ _ _ r).trans (s.readCfg_of_lfg_cfg_eq rfl hr))

/-- Settles O16: CONS and ADV of the engine aside, every command leaves its state registers as they are. -/
theorem stateRegistersAreWrittenOnlyByConsAndAdv : Obligations.StateRegistersAreWrittenOnlyByConsAndAdv := by
  intro i s t e h hregs
  have hx := exec_eq_next_iff.1 h
  by_cases he : e = i.engine
  · subst he
    cases hx with
    | cons e => exact ⟨.inl (by simp), _, rfl, rfl⟩
    | adv e => exact ⟨.inr (by simp), _, rfl, rfl⟩
    | illFormed | rdcfg | consFails | advFails => exact absurd (State.sameEngine_respond s _ _).sameRegs hregs
    | wrcfg r v => exact absurd (State.sameRegs_trans (State.sameRegs_clearValid _ _ _) (s.sameRegs_writeCfg v r _)) hregs
    | ldpreLcg | ldpreLeh | hpush | hclr => exact absurd rfl hregs
  · exact absurd (hx.frame he).sameRegs hregs

end

section
/-! R20, R21, R43, R145: the history of the LFG engine, over k advances and as a ring of words. -/

namespace Sys2Proof.Machine

/-! ## k advances -/

theorem lfgNext_lt (c : LfgCfg) (h : List Word) (hm : 1 ≤ c.mod.toNat) : (lfgNext c h).toNat < c.mod.toNat := by
  have hnext := lfgNext_toNat c h hm
  have hlt := Int.emod_lt_of_pos ((LfgOp.ofWord c.op).apply (tap h c.j.toNat) (tap h c.k.toNat))
    (by exact_mod_cast hm : (0 : Int) < c.mod.toNat)
  omega

/-- An advance shifts the history by one place. -/
theorem mem_drop_histAppend {h : List Word} {next w : Word} {j : Nat} (hw : w ∈ (histAppend h next).drop (j - 1)) :
    w ∈ h.drop j ∨ w = next := by
  rw [histAppend, List.drop_append, List.mem_append] at hw
  rcases hw with hw | hw
  · cases j with
    | zero => exact .inl (List.mem_of_mem_tail hw)
    | succ j => exact .inl (by simpa [List.drop_tail] using hw)
  · exact .inr (by simpa using List.mem_of_mem_drop hw)

/-- The words of H from index `j` on are below the modulus (R20). -/
def Lfg.reducedFrom (e : Lfg) (j : Nat) : Prop := ∀ w ∈ e.hist.drop j, w.toNat < e.cfg.mod.toNat

/-- One advance reduces one word more: the one it appends (R20, R145). -/
theorem State.reducedFrom_moved {s : State} {j : Nat} (hm : 1 ≤ s.lfg.cfg.mod.toNat) (h : s.lfg.reducedFrom j) :
    (s.moved .lfg).lfg.reducedFrom (j - 1) := by
  intro w hw
  rcases mem_drop_histAppend hw with hw | rfl
  · exact h w hw
  · exact lfgNext_lt _ _ hm

theorem runAll_cons {i : Instr} {s t : State} (h : Executes s i t) (is : List Instr) : runAll (i :: is) s = runAll is t := by
  simp only [runAll, h.exec_eq]

/-- `n` advances of a constructed engine keep its row and its configuration, and reduce `n` words more. -/
theorem runAll_advLfg {n j : Nat} {s t : State} (hv : s.lfg.valid = true) (hrow : s.row .lfg) (hred : s.lfg.reducedFrom j)
    (h : runAll (List.replicate n .advLfg) s = some t) :
    t.row .lfg ∧ t.lfg.cfg = s.lfg.cfg ∧ t.lfg.reducedFrom (j - n) := by
  induction n generalizing s j with
  | zero =>
    obtain rfl : s = t := by simpa [runAll] using h
    exact ⟨hrow, rfl, hred⟩
  | succ n ih =>
    rw [List.replicate_succ, show Instr.advLfg = .adv .lfg from rfl, runAll_cons (.adv .lfg hv)] at h
    obtain ⟨hm, -⟩ := id hrow
    obtain ⟨hrow', hcfg, hred'⟩ :=
      ih (s := (s.moved .lfg).ok _ _) hv (State.row_moved hrow) (State.reducedFrom_moved hm hred) h
    exact ⟨hrow', hcfg, by rwa [Nat.sub_sub, Nat.add_comm 1] at hred'⟩

/-! ## The ring -/

/-- H is HIST read from HEAD on: the words rotated by HEAD (R21, R43). -/
theorem HistRing.logical_eq_rotate (r : HistRing) : r.logical = r.words.rotate r.head := by
  refine List.ext_getElem (by simp [logical]) fun i _ hi => ?_
  rw [List.length_rotate] at hi
  have hlt : (r.head + i) % r.words.length < r.words.length := Nat.mod_lt _ (by omega)
  simp [logical, List.getElem_rotate, hlt, Nat.add_comm i]

/-- After CONS, HIST and H are the same words (R43, R144). -/
theorem HistRing.logical_load (seed : WordMem) (k : Nat) : (load seed k).logical = seed.take k := by
  rw [logical_eq_rotate]
  exact List.rotate_zero _

theorem HistRing.wf_iff (r : HistRing) : r.wf = true ↔ r.head < r.words.length := decide_eq_true_iff

/-- A tap of the ring is that tap of H (R145). -/
theorem HistRing.tap_eq (r : HistRing) {p : Nat} (h1 : 1 ≤ p) (hp : p ≤ r.words.length) :
    r.tap p = Machine.tap r.logical p := by
  have hget : (List.range r.words.length)[p - 1]? = some (p - 1) := List.getElem?_range (by omega)
  simp [HistRing.tap, Machine.tap, logical, List.getD_eq_getElem?_getD, hget, Nat.add_sub_assoc h1]

/-- In a rotated list, writing at the first place and rotating by one more moves the written word to the end. -/
theorem rotate_succ_set {l : List Word} {n : Nat} (h : n < l.length) (w : Word) :
    (l.set n w).rotate (n + 1) = (l.rotate n).tail ++ [w] := by
  have hne : l.drop n ≠ [] := by simpa using h
  have hlast : (l.set n w).take (n + 1) = l.take n ++ [w] := by
    rw [List.take_succ_eq_append_getElem (by simpa using h), List.take_set_of_le (Nat.le_refl n), List.getElem_set_self]
  rw [List.rotate_eq_drop_append_take h.le, List.rotate_eq_drop_append_take (by simpa using h), hlast,
    List.drop_set_of_lt (Nat.lt_succ_self n), List.tail_append_of_ne_nil hne, List.tail_drop, List.append_assoc]

/-- Writing at HEAD and moving HEAD on evicts the oldest word of H and appends the new one (R43, R145). -/
theorem HistRing.logical_append {r : HistRing} (h : r.wf = true) (next : Word) :
    (r.append next).logical = histAppend r.logical next := by
  calc (r.append next).logical
      = (r.words.set r.head next).rotate ((r.head + 1) % (r.words.set r.head next).length) := by
        rw [logical_eq_rotate, List.length_set, append]
    _ = (r.words.rotate r.head).tail ++ [next] := by rw [List.rotate_mod, rotate_succ_set ((wf_iff r).1 h)]
    _ = histAppend r.logical next := by rw [logical_eq_rotate, histAppend]

theorem HistRing.wf_append {r : HistRing} (h : r.wf = true) (next : Word) : (r.append next).wf = true := by
  rw [wf_iff] at h ⊢
  simpa [append] using Nat.mod_lt _ (Nat.zero_lt_of_lt h)

/-- The ring answers what the list answers: both taps lie in the history (R143, R145). -/
theorem HistRing.advance_eq {c : LfgCfg} {r : HistRing} (hj : 1 ≤ c.j.toNat) (hjk : c.j.toNat < c.k.toNat)
    (hk : c.k.toNat = r.words.length) : r.advance c = (r.append (lfgNext c r.logical), lfgNext c r.logical) := by
  simp only [advance, lfgNext, r.tap_eq hj (by omega), r.tap_eq (p := c.k.toNat) (by omega) (by omega)]

end Sys2Proof.Machine

open Sys2Proof Sys2Proof.Machine

/-- Settles O45: no word is known to be reduced before the first advance, and each advance adds one. -/
theorem afterKAdvancesTheHistoryIsReduced : Obligations.AfterKAdvancesTheHistoryIsReduced := by
  intro s t hv hrow h
  obtain ⟨-, -, -, -, -, -, hlen⟩ := id hrow
  have hred : s.lfg.reducedFrom s.lfg.cfg.k.toNat := by simp [Lfg.reducedFrom, ← hlen]
  obtain ⟨⟨-, -, -, -, -, -, hlen'⟩, hcfg, hred'⟩ := runAll_advLfg hv hrow hred h
  rw [hcfg] at hlen'
  rw [Lfg.reducedFrom, hcfg, Nat.sub_self] at hred'
  exact ⟨hlen', hred'⟩

/-- Settles O46: HIST is H rotated by HEAD, and an advance writes at HEAD and moves it on. -/
theorem theRingRefinesTheHistory : Obligations.TheRingRefinesTheHistory := by
  refine ⟨fun seed k hk => ⟨?_, HistRing.logical_load seed k⟩, fun c r hr hj hjk hk => ?_⟩
  · exact (HistRing.wf_iff _).2 (hk.trans_eq (WordMem.take_length seed k).symm)
  · rw [HistRing.advance_eq hj hjk hk]
    exact ⟨HistRing.wf_append hr _, rfl, HistRing.logical_append hr _⟩

end

section
/-! R30, R232: what the spec leaves unspecified is not observed. -/

namespace Sys2Proof.Machine

/-- Two states agree on all the spec specifies of engine `e` (R30): VALID, the configuration, and the state registers while `e`
is constructed. -/
def State.alike (s t : State) (e : Engine) : Prop :=
  s.valid e = t.valid e ∧ s.sameConfig t e ∧ (s.valid e = true → s.sameRegs t e)

theorem State.sameButUnspecified_iff (s t : State) :
    s.sameButUnspecified t ↔ s.rsp = t.rsp ∧ s.host = t.host ∧ s.params = t.params ∧ ∀ e, s.alike t e := Iff.rfl

theorem State.alike_refl (s : State) (e : Engine) : s.alike s e :=
  ⟨rfl, by cases e <;> simp [State.sameConfig, State.samePushed], fun _ => (s.sameEngine_refl e).sameRegs⟩

section Alike

variable {s t : State} {e : Engine}

/-- An engine that is not constructed has its configuration only. -/
theorem State.alike_of_not_valid (hs : s.valid e = false) (ht : t.valid e = false) (h : s.sameConfig t e) : s.alike t e :=
  ⟨hs.trans ht.symm, h, fun hv => absurd hv (by simp [hs])⟩

/-- What two states show of an engine is a matter of that engine and the parameters alone. -/
theorem State.alike.congr {s' t' : State} (h : s.alike t e) (hs : s'.sameEngine s e) (ht : t'.sameEngine t e)
    (hp : s'.params = s.params) : s'.alike t' e := by
  cases s; cases s'; cases t; cases t'; cases hp; cases e <;> cases hs <;> cases ht <;> exact h

theorem State.alike.respond (h : s.alike t e) (r r' : Response) : (s.respond r).alike (t.respond r') e :=
  h.congr (s.sameEngine_respond r e) (t.sameEngine_respond r' e) rfl

/-! ## What a command reads -/

theorem State.sameConfig.checks_eq (h : s.sameConfig t e) (hp : s.params = t.params) : s.checks e = t.checks e := by
  cases e
  case lfg =>
    obtain ⟨hcfg, hlen, -⟩ := h
    simp only [State.checks, lfgChecks, hcfg, hlen, hp]
  all_goals simp only [State.checks]; rw [h]

theorem State.sameConfig.readCfg_eq {r : CfgReg} (h : s.sameConfig t r.engine) : s.readCfg r = t.readCfg r := by
  rcases r with r | r | r | r | r | r
  case lfg =>
    obtain ⟨hcfg, hlen, -⟩ := h
    cases r <;> simp only [State.readCfg, hcfg, hlen]
  all_goals
    have hcfg := h
    cases r <;> simp only [State.readCfg] <;> rw [hcfg]

/-- CONS.LFG reads pushed words only: `k = HLEN` and `k ≤ KMAX` (R143, R144). -/
theorem State.samePushed.take_eq (h : s.samePushed t) (hc : firstFailing (s.checks .lfg) = none) :
    s.lfg.seedHist.take s.lfg.cfg.k.toNat = t.lfg.seedHist.take s.lfg.cfg.k.toNat := by
  obtain ⟨-, -, -, hk, -, hlen, -⟩ := Lfg.row_of_checks hc true
  obtain ⟨-, hread⟩ := h
  refine List.map_congr_left fun i hi => hread i ?_ ?_
  all_goals
    rw [List.mem_range] at hi
    simp only at hk hlen
    omega

theorem State.alike.output_eq (h : s.alike t e) (hv : s.valid e = true) (hp : s.params = t.params) :
    s.output e = t.output e := by
  obtain ⟨-, hcfg, hregs⟩ := h
  replace hregs := hregs hv
  cases e <;> simp only [State.sameConfig, State.sameRegs] at hcfg hregs <;> simp only [State.output, hcfg, hregs, hp]

/-! ## What a command writes -/

/-- CONS sets the state registers from the configuration (R84). -/
theorem State.sameConfig.sameRegs_built (h : s.sameConfig t e) (hc : firstFailing (s.checks e) = none) :
    (s.built e).sameRegs (t.built e) e := by
  cases e
  case lfg =>
    obtain ⟨hcfg, hpushed⟩ := h
    simpa only [State.sameRegs, State.built, ← hcfg] using hpushed.take_eq hc
  all_goals
    simp only [State.sameConfig] at h
    simp only [State.sameRegs, State.built, h, and_self]

theorem State.sameConfig.built (h : s.sameConfig t e) (hc : firstFailing (s.checks e) = none) :
    (s.built e).alike (t.built e) e :=
  ⟨by rw [State.valid_built, State.valid_built], by cases e <;> exact h, fun _ => h.sameRegs_built hc⟩

theorem State.alike.moved (h : s.alike t e) (hv : s.valid e = true) : (s.moved e).alike (t.moved e) e := by
  obtain ⟨hvalid, hcfg, hregs⟩ := h
  replace hregs := hregs hv
  refine ⟨by rw [State.valid_moved, State.valid_moved, hvalid], by cases e <;> exact hcfg, fun _ => ?_⟩
  cases e <;> simp only [State.sameConfig, State.sameRegs] at hcfg hregs <;>
    simp only [State.sameRegs, State.moved, Wh.next, hcfg, hregs, and_self]

theorem State.sameConfig.clearValid (h : s.sameConfig t e) : (s.clearValid e).alike (t.clearValid e) e :=
  State.alike_of_not_valid (by simp [State.valid_clearValid]) (by simp [State.valid_clearValid]) (by cases e <;> exact h)

theorem State.sameConfig.writeCfg {r : CfgReg} (v : Word) (h : s.sameConfig t r.engine) :
    (s.writeCfg v r).sameConfig (t.writeCfg v r) r.engine := by
  rcases r with r | r | r | r | r | r
  case lfg =>
    obtain ⟨hcfg, hpushed⟩ := h
    cases r <;> exact ⟨by simp only [State.writeCfg, hcfg], hpushed⟩
  all_goals
    have hcfg := h
    cases r <;> simp only [State.sameConfig, CfgReg.engine, State.writeCfg] <;> rw [hcfg]

/-- A push stores the same word at the same place (R140). -/
theorem State.samePushed.push (h : s.samePushed t) (hp : s.params = t.params) (hs : s.lfg.seedHist.wf = true)
    (ht : t.lfg.seedHist.wf = true) (v : Word) :
    State.samePushed { s with lfg := s.lfg.push s.params.kmax v } { t with lfg := t.lfg.push t.params.kmax v } := by
  obtain ⟨hlen, hread⟩ := h
  rcases Nat.lt_or_ge s.lfg.hlen s.params.kmax with hroom | hfull
  · rw [Lfg.push_room _ _ v hroom, Lfg.push_room _ _ v (by rwa [← hlen, ← hp])]
    refine ⟨congrArg (· + 1) hlen, fun i hi hk => ?_⟩
    simp only at hi hk ⊢
    rw [← hlen]
    rcases eq_or_ne i s.lfg.hlen with rfl | hne
    · rw [WordMem.read_write_same _ _ _ hs, WordMem.read_write_same _ _ _ ht]
    · rw [WordMem.read_write_other _ _ _ _ hne, WordMem.read_write_other _ _ _ _ hne]
      exact hread i (by omega) hk
  · rw [Lfg.push_full _ _ v hfull, Lfg.push_full _ _ v (by rwa [← hlen, ← hp])]
    exact ⟨by simp only [hp], fun i _ hk => hread i (hk.trans_le hfull) hk⟩

end Alike

/-- From states that agree on what the spec specifies of a command's engine, the command does the same to it and answers the
same. -/
theorem Executes.alike {i : Instr} {s t s' : State} (h : Executes s i s') (ha : s.alike t i.engine) (hp : s.params = t.params)
    (hs : s.lfg.seedHist.wf = true) (ht : t.lfg.seedHist.wf = true) :
    ∃ t', Executes t i t' ∧ s'.alike t' i.engine ∧ s'.rsp = t'.rsp := by
  obtain ⟨hvalid, hcfg, -⟩ := id ha
  cases h with
  | illFormed _ hw => exact ⟨_, .illFormed i hw, ha.respond _ _, rfl⟩
  | wrcfg r v hr => exact ⟨_, .wrcfg r v hr, (hcfg.writeCfg v).clearValid.respond _ _, rfl⟩
  | rdcfg r => exact ⟨_, .rdcfg r, ha.respond _ _, by simp [hcfg.readCfg_eq]⟩
  | ldpreLcg p =>
    have hlcg : s.lcg.cfg = t.lcg.cfg := hcfg
    exact ⟨_, .ldpreLcg p, State.alike_of_not_valid rfl rfl (congrArg (LcgCfg.load · p) hlcg), rfl⟩
  | ldpreLeh p hl =>
    have hleh : s.leh.cfg = t.leh.cfg := hcfg
    exact ⟨_, .ldpreLeh p hl, State.alike_of_not_valid rfl rfl (congrArg (LehCfg.load · p) hleh), rfl⟩
  | consFails e cause hc =>
    rw [Instr.engine_cons] at ha hcfg ⊢
    exact ⟨_, .consFails e cause (by rwa [← hcfg.checks_eq hp]), ha.respond _ _, rfl⟩
  | cons e hc =>
    rw [Instr.engine_cons] at hcfg ⊢
    exact ⟨_, .cons e (by rwa [← hcfg.checks_eq hp]), (hcfg.built hc).respond _ _, rfl⟩
  | advFails e hv =>
    rw [Instr.engine_adv] at ha hvalid ⊢
    exact ⟨_, .advFails e (by rwa [← hvalid]), ha.respond _ _, rfl⟩
  | adv e hv =>
    rw [Instr.engine_adv] at ha hvalid ⊢
    exact ⟨_, .adv e (by rwa [← hvalid]), (ha.moved hv).respond _ _, by simp [ha.output_eq hv hp]⟩
  | hpush v =>
    obtain ⟨hlfg, hpushed⟩ := hcfg
    have hpush := hpushed.push hp hs ht v
    exact ⟨_, .hpush v, State.alike_of_not_valid rfl rfl ⟨hlfg, hpush⟩, by
      simp [show (s.lfg.push s.params.kmax v).hlen = (t.lfg.push t.params.kmax v).hlen from hpush.1]⟩
  | hclr =>
    obtain ⟨hlfg, -⟩ := hcfg
    exact ⟨_, .hclr, State.alike_of_not_valid rfl rfl ⟨hlfg, rfl, fun i hi => absurd hi (Nat.not_lt_zero i)⟩, rfl⟩

/-- A command keeps two states alike on every engine, and answers both the same. -/
theorem Executes.sameButUnspecified {i : Instr} {s t s' : State} (h : Executes s i s') (hst : ∀ e, s.alike t e)
    (hhost : s.host = t.host) (hp : s.params = t.params) (hs : s.lfg.seedHist.wf = true) (ht : t.lfg.seedHist.wf = true) :
    ∃ t', Executes t i t' ∧ s'.sameButUnspecified t' := by
  obtain ⟨t', h', hown, hrsp⟩ := h.alike (hst _) hp hs ht
  obtain ⟨hhs, hps⟩ := h.host_params
  obtain ⟨hht, hpt⟩ := h'.host_params
  refine ⟨t', h', hrsp, by rw [hhs, hht, hhost], by rw [hps, hpt, hp], fun e => ?_⟩
  by_cases he : e = i.engine
  · exact he ▸ hown
  · exact (hst e).congr (h.frame he) (h'.frame he) hps

end Sys2Proof.Machine

open Sys2Proof Sys2Proof.Machine

/-- Settles O21: each outcome of a step is matched from the other state. -/
theorem unspecifiedCellsAreNeverObserved : Obligations.UnspecifiedCellsAreNeverObserved := by
  intro s t s' hs ht hsame h
  obtain ⟨-, hhost, hp, hst⟩ := (s.sameButUnspecified_iff t).1 hsame
  have htake (es : List HostEvent) (e : Engine) : (s.withHost es).alike (t.withHost es) e :=
    (hst e).congr (s.sameEngine_withHost es e) (t.sameEngine_withHost es e) rfl
  cases step_eq_next_iff.1 h with
  | idle hh =>
    refine ⟨_, step_idle (hhost ▸ hh), rfl, hhost, hp, fun e => ?_⟩
    exact (hst e).congr (s.sameEngine_idle e) (t.sameEngine_idle e) rfl
  | reset es hh =>
    refine ⟨_, step_reset (hhost ▸ hh), ?_⟩
    rw [resetEvent_withHost, resetEvent_withHost, hp]
    exact ⟨rfl, rfl, rfl, State.alike_refl _⟩
  | illegal c es x hh hd =>
    have hstep : step t = .next ((t.withHost es).fail .illegalCmd) := by rw [step_command (hhost ▸ hh), accept_error hd]
    exact ⟨_, hstep, rfl, rfl, hp, fun e => (htake es e).respond _ _⟩
  | command c es i _ hh hd hx =>
    obtain ⟨t', ht', hsame'⟩ := hx.sameButUnspecified (htake es) rfl hp hs ht
    exact ⟨t', by rw [step_command (hhost ▸ hh), accept_ok hd, ht'.exec_eq], hsame'⟩

end

section
/-! R41, R66: the configuration address map, and which WRCFG and RDCFG words decode. -/

namespace Sys2Proof

/-! ## The numbers of engines, operations and cells -/

theorem Engine.ofNat?_eq_some_iff {n : Nat} {e : Engine} : Engine.ofNat? n = some e ↔ e.num.toNat = n := by
  constructor
  · intro h
    unfold Engine.ofNat? at h
    split at h <;> cases h <;> rfl
  · rintro rfl
    cases e <;> rfl

theorem CfgReg.ofIndex?_eq_some_iff {e : Engine} {n : Nat} {r : CfgReg} :
    CfgReg.ofIndex? e n = some r ↔ r.engine = e ∧ r.index.toNat = n := by
  constructor
  · intro h
    unfold CfgReg.ofIndex? at h
    split at h <;> cases h <;> exact ⟨rfl, rfl⟩
  · rintro ⟨rfl, rfl⟩
    rcases r with r | r | r | r | r | r <;> cases r <;> rfl

@[simp] theorem Opc.ofNat?_num (o : Opc) : Opc.ofNat? o.num.toNat = some o := by cases o <;> rfl

theorem CfgReg.writable_iff (r : CfgReg) : r.writable = true ↔ r ≠ .lfg .hlen := by
  rcases r with r | r | r | r | r | r <;> cases r <;> simp [CfgReg.writable]

theorem Engine.eq_of_num_eq {e e' : Engine} (h : e.num = e'.num) : e = e' := by
  have he : Engine.ofNat? e'.num.toNat = some e := Engine.ofNat?_eq_some_iff.2 (by rw [h])
  simpa [Engine.ofNat?_eq_some_iff.2 rfl, eq_comm] using he

/-- Two cells at the same pair (ENG, IDX) are one cell (R41). -/
theorem CfgReg.eq_of_num_eq_of_index_eq {r r' : CfgReg} (he : r.engine.num = r'.engine.num) (hi : r.index = r'.index) :
    r = r' := by
  have hr : CfgReg.ofIndex? r'.engine r'.index.toNat = some r :=
    CfgReg.ofIndex?_eq_some_iff.2 ⟨Engine.eq_of_num_eq he, by rw [hi]⟩
  simpa [CfgReg.ofIndex?_eq_some_iff.2 ⟨rfl, rfl⟩, eq_comm] using hr

/-! ## The address map -/

/-- The cells of the configuration space, in the order of R41. -/
def CfgReg.all : List CfgReg :=
  [.lcg .mod, .lcg .mul, .lcg .inc, .lcg .seed, .lcg .obr, .leh .mod, .leh .mul, .leh .seed, .lfg .mod, .lfg .j, .lfg .k,
    .lfg .op, .lfg .hlen, .lfsr .seed, .lfsr .mask, .msq .seed, .msq .digits, .msq .width, .wh .seed0, .wh .seed1, .wh .seed2]

theorem CfgReg.mem_all (r : CfgReg) : r ∈ CfgReg.all := by
  rcases r with r | r | r | r | r | r <;> cases r <;> decide

/-- The table of R41: each cell with its pair (ENG, IDX). -/
def addressMap : List (Nat × Nat × CfgReg) := CfgReg.all.map fun r => (r.engine.num.toNat, r.index.toNat, r)

theorem mem_addressMap_iff {e : BitVec 4} {i : BitVec 8} {r : CfgReg} :
    (e.toNat, i.toNat, r) ∈ addressMap ↔ r.engine.num = e ∧ r.index = i := by
  constructor
  · intro h
    obtain ⟨r', -, hr⟩ := List.mem_map.1 h
    obtain ⟨he, hi, rfl⟩ : r'.engine.num.toNat = e.toNat ∧ r'.index.toNat = i.toNat ∧ r' = r := by simpa using hr
    exact ⟨BitVec.eq_of_toNat_eq he, BitVec.eq_of_toNat_eq hi⟩
  · rintro ⟨rfl, rfl⟩
    exact List.mem_map_of_mem (CfgReg.mem_all r)

/-! ## Decoding a word of the one layout -/

/-- A word with reserved fields 0 that names an operation passes tests 1 and 2 of R66, so tests 3 and 4 decide. -/
theorem decode_eq_ok_iff_of_fields {c : Command} {o : Opc} {i : Instr} (hopc : c.opc = o.num) (hz1 : c.z1 = 0)
    (hz0 : c.z0 = 0) :
    decode c = .ok i ↔
      ∃ e : Engine, e.num = c.eng ∧ o.legalEngine e = true ∧ decodeOperand o e c.idx.toNat c.data = some i := by
  have hnum (e : Engine) : e.num = c.eng ↔ Engine.ofNat? c.eng.toNat = some e := by
    rw [Engine.ofNat?_eq_some_iff, BitVec.toNat_inj]
  simp only [decode, hopc, hz1, hz0, and_self, if_true, Opc.ofNat?_num, hnum]
  cases Engine.ofNat? c.eng.toNat with
  | none => simp
  | some e =>
    cases hl : o.legalEngine e with
    | false => simp [hl]
    | true => cases hop : decodeOperand o e c.idx.toNat c.data <;> simp [hl, hop]

/-- The same of the word `mkWord` lays out (R61). -/
theorem decode_mkWord_eq_ok_iff {o : Opc} {en : BitVec 4} {ix : BitVec 8} {d : Word} {i : Instr} :
    decode ⟨mkWord o.num en ix, d⟩ = .ok i ↔
      ∃ e : Engine, e.num = en ∧ o.legalEngine e = true ∧ decodeOperand o e ix.toNat d = some i := by
  obtain ⟨hopc, heng, hz1, hidx, hz0⟩ := Laws.Fields.mkWord_fields o.num en ix d
  rw [decode_eq_ok_iff_of_fields hopc hz1 hz0, heng, hidx]

theorem decode_rdcfg_eq_ok_iff {en : BitVec 4} {ix : BitVec 8} {d : Word} {i : Instr} :
    decode ⟨mkWord Opc.rdcfg.num en ix, d⟩ = .ok i ↔ ∃ r : CfgReg, (r.engine.num = en ∧ r.index = ix) ∧ i = .rdcfg r := by
  rw [decode_mkWord_eq_ok_iff]
  simp only [decodeOperand, Opc.legalEngine, Option.map_eq_some_iff, CfgReg.ofIndex?_eq_some_iff, BitVec.toNat_inj]
  constructor
  · rintro ⟨e, he, -, r, ⟨rfl, hi⟩, rfl⟩
    exact ⟨r, ⟨he, hi⟩, rfl⟩
  · rintro ⟨r, ⟨he, hi⟩, rfl⟩
    exact ⟨r.engine, he, trivial, r, ⟨rfl, hi⟩, rfl⟩

theorem decodeOperand_wrcfg_eq_some_iff {e : Engine} {n : Nat} {d : Word} {i : Instr} :
    decodeOperand .wrcfg e n d = some i ↔
      ∃ r : CfgReg, (r.engine = e ∧ r.index.toNat = n) ∧ r.writable = true ∧ i = .wrcfg r d := by
  simp only [← CfgReg.ofIndex?_eq_some_iff, decodeOperand]
  cases CfgReg.ofIndex? e n with
  | none => simp
  | some r =>
    cases hw : r.writable with
    | false => simp [hw]
    | true => simpa [hw] using eq_comm

theorem decode_wrcfg_eq_ok_iff {en : BitVec 4} {ix : BitVec 8} {d : Word} {i : Instr} :
    decode ⟨mkWord Opc.wrcfg.num en ix, d⟩ = .ok i ↔
      ∃ r : CfgReg, (r.engine.num = en ∧ r.index = ix) ∧ r ≠ .lfg .hlen ∧ i = .wrcfg r d := by
  rw [decode_mkWord_eq_ok_iff]
  simp only [decodeOperand_wrcfg_eq_some_iff, Opc.legalEngine, BitVec.toNat_inj, CfgReg.writable_iff]
  constructor
  · rintro ⟨e, he, -, r, ⟨rfl, hi⟩, hw, rfl⟩
    exact ⟨r, ⟨he, hi⟩, hw, rfl⟩
  · rintro ⟨r, ⟨he, hi⟩, hw, rfl⟩
    exact ⟨r.engine, he, trivial, r, ⟨rfl, hi⟩, hw, rfl⟩

end Sys2Proof

namespace Sys2Proof.Machine

/-- A word that stands for no command is answered ILLEGAL_CMD, and nothing else changes (R66). -/
theorem step_of_decode_ne_ok (s : State) (es : List HostEvent) {c : Command} (hd : ∀ i, decode c ≠ .ok i) :
    step (s.withHost (.command c :: es)) = .next ((s.withHost es).fail .illegalCmd) := by
  cases hc : decode c with
  | ok i => exact absurd hc (hd i)
  | error x => exact step_eq_next_iff.2 (.illegal c es x rfl hc)

end Sys2Proof.Machine

open Sys2Proof Sys2Proof.Machine

/-- Settles O6: the cells listed are those whose engine number and index are ENG and IDX, and so are the words that decode. -/
theorem theAddressMapIsComplete : Obligations.TheAddressMapIsComplete := by
  intro e i d s es reading writing refused
  have hwritingRefused (h : ∀ r : CfgReg, r.engine.num = e ∧ r.index = i → r = .lfg .hlen) : writing = .next refused := by
    refine step_of_decode_ne_ok s es (c := ⟨mkWord Opc.wrcfg.num e i, d⟩) fun j hj => ?_
    obtain ⟨r, hr, hne, -⟩ := decode_wrcfg_eq_ok_iff.1 hj
    exact hne (h r hr)
  refine ⟨fun r hr => ⟨?_, fun hne => ?_⟩, fun hnone => ⟨?_, ?_⟩, ?_⟩
  · exact aStepRunsTheDecodedCommand _ _ es _ rfl (decode_rdcfg_eq_ok_iff.2 ⟨r, mem_addressMap_iff.1 hr, rfl⟩)
  · exact aStepRunsTheDecodedCommand _ _ es _ rfl (decode_wrcfg_eq_ok_iff.2 ⟨r, mem_addressMap_iff.1 hr, hne, rfl⟩)
  · refine step_of_decode_ne_ok s es (c := ⟨mkWord Opc.rdcfg.num e i, d⟩) fun j hj => ?_
    obtain ⟨r, hr, -⟩ := decode_rdcfg_eq_ok_iff.1 hj
    exact hnone r (mem_addressMap_iff.2 hr)
  · exact hwritingRefused fun r hr => absurd (mem_addressMap_iff.2 hr) (hnone r)
  · rintro rfl rfl
    exact hwritingRefused fun r ⟨he, hi⟩ => CfgReg.eq_of_num_eq_of_index_eq (r' := .lfg .hlen) he hi

end

section
/-! R61, R63, R65, R66: encoding and decoding are inverse, by the fields of a word and the commands each operation decodes to. -/

namespace Sys2Proof

open Laws.Fields (opcOf idxOf)

/-! ## The numbers of operations and presets -/

theorem Opc.ofNat?_eq_some_iff {n : Nat} {o : Opc} : Opc.ofNat? n = some o ↔ o.num.toNat = n := by
  constructor
  · intro h
    unfold Opc.ofNat? at h
    split at h <;> cases h <;> rfl
  · rintro rfl
    exact Opc.ofNat?_num o

theorem Preset.ofNat?_eq_some_iff {n : Nat} {p : Preset} : Preset.ofNat? n = some p ↔ p.num.toNat = n := by
  constructor
  · intro h
    unfold Preset.ofNat? at h
    split at h <;> cases h <;> rfl
  · rintro rfl
    cases p <;> rfl

theorem Opc.legalEngine_hpush_iff {e : Engine} : Opc.hpush.legalEngine e = true ↔ e = .lfg := by
  cases e <;> simp [Opc.legalEngine]

theorem Opc.legalEngine_hclr_iff {e : Engine} : Opc.hclr.legalEngine e = true ↔ e = .lfg := by
  cases e <;> simp [Opc.legalEngine]

/-! ## CONS and ADV of any engine, as terms -/

@[simp] theorem Instr.wf_cons (e : Engine) : (Instr.cons e).wf = true := by cases e <;> rfl
@[simp] theorem Instr.wf_adv (e : Engine) : (Instr.adv e).wf = true := by cases e <;> rfl
@[simp] theorem Instr.opcOf_cons (e : Engine) : opcOf (.cons e) = .cons := by cases e <;> rfl
@[simp] theorem Instr.opcOf_adv (e : Engine) : opcOf (.adv e) = .adv := by cases e <;> rfl
@[simp] theorem Instr.idxOf_cons (e : Engine) : idxOf (.cons e) = 0 := by cases e <;> rfl
@[simp] theorem Instr.idxOf_adv (e : Engine) : idxOf (.adv e) = 0 := by cases e <;> rfl
@[simp] theorem Instr.usesData_cons (e : Engine) : (Instr.cons e).usesData = false := by cases e <;> rfl
@[simp] theorem Instr.usesData_adv (e : Engine) : (Instr.adv e).usesData = false := by cases e <;> rfl

/-! ## The fields of a word, as numbers and of an encoded command (R61) -/

theorem Command.opc_toNat (c : Command) : c.opc.toNat = c.word.toNat / 2 ^ 24 := by
  have hw := c.word.isLt
  rw [Command.opc, BitVec.extractLsb'_toNat, Nat.shiftRight_eq_div_pow]
  omega

theorem Command.eng_toNat (c : Command) : c.eng.toNat = c.word.toNat / 2 ^ 20 % 2 ^ 4 := by
  rw [Command.eng, BitVec.extractLsb'_toNat, Nat.shiftRight_eq_div_pow]

theorem Command.z1_toNat (c : Command) : c.z1.toNat = c.word.toNat / 2 ^ 16 % 2 ^ 4 := by
  rw [Command.z1, BitVec.extractLsb'_toNat, Nat.shiftRight_eq_div_pow]

theorem Command.idx_toNat (c : Command) : c.idx.toNat = c.word.toNat / 2 ^ 8 % 2 ^ 8 := by
  rw [Command.idx, BitVec.extractLsb'_toNat, Nat.shiftRight_eq_div_pow]

theorem Command.z0_toNat (c : Command) : c.z0.toNat = c.word.toNat % 2 ^ 8 := by
  rw [Command.z0, BitVec.extractLsb'_toNat, Nat.shiftRight_eq_div_pow, Nat.pow_zero, Nat.div_one]

/-- With the reserved fields 0, a word is the layout of its other fields (R61). -/
theorem Command.word_eq_mkWord {c : Command} (hz1 : c.z1 = 0) (hz0 : c.z0 = 0) : c.word = mkWord c.opc c.eng c.idx := by
  have hz1' : c.word.toNat / 2 ^ 16 % 2 ^ 4 = 0 := by rw [← c.z1_toNat, hz1]; rfl
  have hz0' : c.word.toNat % 2 ^ 8 = 0 := by rw [← c.z0_toNat, hz0]; rfl
  have hw := c.word.isLt
  apply BitVec.eq_of_toNat_eq
  rw [mkWord, BitVec.toNat_ofNat, c.opc_toNat, c.eng_toNat, c.idx_toNat]
  omega

/-- Every command's word is laid out from its operation, engine and IDX (R61, R63). -/
theorem Instr.word_eq_mkWord (i : Instr) : i.word = mkWord (opcOf i).num i.engine.num (idxOf i) := by cases i <;> rfl

/-- The fields of an encoded command, of any command (R61). -/
theorem fields_encode (i : Instr) : Laws.Fields.Statement i := by
  rw [Laws.Fields.Statement, encode, i.word_eq_mkWord]
  exact Laws.Fields.mkWord_fields _ _ _ _

/-- A word is that of a command exactly when its fields are the command's (R61). -/
theorem Command.word_eq_iff {c : Command} {i : Instr} :
    c.word = i.word ↔ (c.z1 = 0 ∧ c.z0 = 0) ∧ c.opc = (opcOf i).num ∧ c.eng = i.engine.num ∧ c.idx = idxOf i := by
  constructor
  · obtain ⟨w, d⟩ := c
    rintro rfl
    obtain ⟨hopc, heng, hz1, hidx, hz0⟩ := fields_encode i
    exact ⟨⟨hz1, hz0⟩, hopc, heng, hidx⟩
  · rintro ⟨⟨hz1, hz0⟩, hopc, heng, hidx⟩
    rw [Command.word_eq_mkWord hz1 hz0, i.word_eq_mkWord, hopc, heng, hidx]

/-! ## Decoding, inverted (R66) -/

theorem decodeOperand_ldpre_eq_some_iff {e : Engine} {n : Nat} {d : Word} {i : Instr} :
    decodeOperand .ldpre e n d = some i ↔
      ∃ p : Preset, p.num.toNat = n ∧
        ((e = .lcg ∧ i = .ldpreLcg p) ∨ (e = .leh ∧ p.forLehmer = true ∧ i = .ldpreLeh p)) := by
  simp only [← Preset.ofNat?_eq_some_iff, decodeOperand]
  cases Preset.ofNat? n with
  | none => cases e <;> simp
  | some p => cases e <;> simp [eq_comm (a := i)]

/-- What passes tests 3 and 4 of R66 is the legal command with that operation, engine and IDX, and the data where it uses it. -/
theorem decodeOperand_eq_some_iff {o : Opc} {e : Engine} {n : Nat} {d : Word} {i : Instr} :
    o.legalEngine e = true ∧ decodeOperand o e n d = some i ↔
      i.wf = true ∧ opcOf i = o ∧ i.engine = e ∧ (idxOf i).toNat = n ∧ (i.usesData = true → d = i.data) := by
  constructor
  · rintro ⟨hl, h⟩
    cases o with
    | wrcfg =>
      obtain ⟨r, ⟨he, hn⟩, hw, rfl⟩ := decodeOperand_wrcfg_eq_some_iff.1 h
      exact ⟨hw, rfl, he, hn, fun _ => rfl⟩
    | rdcfg =>
      obtain ⟨r, hr, rfl⟩ := Option.map_eq_some_iff.1 h
      obtain ⟨he, hn⟩ := CfgReg.ofIndex?_eq_some_iff.1 hr
      exact ⟨rfl, rfl, he, hn, nofun⟩
    | ldpre =>
      obtain ⟨p, hn, ⟨rfl, rfl⟩ | ⟨rfl, hp, rfl⟩⟩ := decodeOperand_ldpre_eq_some_iff.1 h
      · exact ⟨rfl, rfl, rfl, hn, nofun⟩
      · exact ⟨hp, rfl, rfl, hn, nofun⟩
    | cons =>
      obtain ⟨rfl, rfl⟩ : n = 0 ∧ Instr.cons e = i := by simpa [decodeOperand] using h
      simp
    | adv =>
      obtain ⟨rfl, rfl⟩ : n = 0 ∧ Instr.adv e = i := by simpa [decodeOperand] using h
      simp
    | hpush =>
      obtain ⟨rfl, rfl⟩ : n = 0 ∧ Instr.hpush d = i := by simpa [decodeOperand] using h
      exact ⟨rfl, rfl, (Opc.legalEngine_hpush_iff.1 hl).symm, rfl, fun _ => rfl⟩
    | hclr =>
      obtain ⟨rfl, rfl⟩ : n = 0 ∧ Instr.hclr = i := by simpa [decodeOperand] using h
      exact ⟨rfl, rfl, (Opc.legalEngine_hclr_iff.1 hl).symm, rfl, nofun⟩
  · rintro ⟨hwf, rfl, rfl, rfl, hd⟩
    obtain ⟨e, rfl⟩ | ⟨e, rfl⟩ | ⟨r, v, rfl⟩ | ⟨r, rfl⟩ | ⟨p, rfl⟩ | ⟨p, rfl⟩ | ⟨v, rfl⟩ | rfl := Machine.instr_cases i
    · simp [decodeOperand, Opc.legalEngine]
    · simp [decodeOperand, Opc.legalEngine]
    · exact ⟨rfl, decodeOperand_wrcfg_eq_some_iff.2 ⟨r, ⟨rfl, rfl⟩, hwf, by rw [hd rfl, Instr.data]⟩⟩
    · exact ⟨rfl, Option.map_eq_some_iff.2 ⟨r, CfgReg.ofIndex?_eq_some_iff.2 ⟨rfl, rfl⟩, rfl⟩⟩
    · exact ⟨rfl, decodeOperand_ldpre_eq_some_iff.2 ⟨p, rfl, .inl ⟨rfl, rfl⟩⟩⟩
    · exact ⟨rfl, decodeOperand_ldpre_eq_some_iff.2 ⟨p, rfl, .inr ⟨rfl, hwf, rfl⟩⟩⟩
    · exact ⟨rfl, by rw [hd rfl]; rfl⟩
    · exact ⟨rfl, rfl⟩

/-- A word that decodes passes tests 1 and 2 of R66. -/
theorem reserved_and_opc_of_decode_ok {c : Command} {i : Instr} (h : decode c = .ok i) :
    c.z1 = 0 ∧ c.z0 = 0 ∧ ∃ o : Opc, c.opc = o.num := by
  by_cases hz : c.z1 = 0 ∧ c.z0 = 0
  · cases ho : Opc.ofNat? c.opc.toNat with
    | none => simp [decode, hz, ho] at h
    | some o => exact ⟨hz.1, hz.2, o, BitVec.eq_of_toNat_eq (Opc.ofNat?_eq_some_iff.1 ho).symm⟩
  · rw [decode, if_neg hz] at h
    cases h

/-- R65, R66: a word and data decode to a command exactly when it is legal, the word is its word, and the data is its operand
where it takes one. -/
theorem decode_eq_ok_iff {c : Command} {i : Instr} :
    decode c = .ok i ↔ i.wf = true ∧ c.word = i.word ∧ (i.usesData = true → c.data = i.data) := by
  rw [Command.word_eq_iff]
  constructor
  · intro h
    obtain ⟨hz1, hz0, o, ho⟩ := reserved_and_opc_of_decode_ok h
    obtain ⟨e, he, hop⟩ := (decode_eq_ok_iff_of_fields ho hz1 hz0).1 h
    obtain ⟨hwf, rfl, rfl, hidx, hd⟩ := decodeOperand_eq_some_iff.1 hop
    exact ⟨hwf, ⟨⟨hz1, hz0⟩, ho, he.symm, BitVec.eq_of_toNat_eq hidx.symm⟩, hd⟩
  · rintro ⟨hwf, ⟨⟨hz1, hz0⟩, ho, he, hidx⟩, hd⟩
    exact (decode_eq_ok_iff_of_fields ho hz1 hz0).2
      ⟨i.engine, he.symm, decodeOperand_eq_some_iff.2 ⟨hwf, rfl, rfl, by rw [hidx], hd⟩⟩

theorem Instr.data_of_not_usesData {i : Instr} (h : i.usesData = false) : i.data = 0 := by
  cases i with
  | wrcfg | hpush => cases h
  | _ => rfl

/-! ## The table of legal words (R63, R66) -/

/-- Tests 2 to 4 of R66, on the numbers in the fields OPC, ENG and IDX; the pairs test 4 names are those of the cells, in the
order of R41. -/
abbrev fieldsLegal (opc eng idx : Nat) : Prop :=
  (1 ≤ opc ∧ opc ≤ 7) ∧ ((opc = 3 → eng ≤ 1) ∧ (6 ≤ opc → eng = 2) ∧ (opc ≤ 5 → eng ≤ 5)) ∧
    (opc ≤ 2 → (eng, idx) ∈ CfgReg.all.map fun r => (r.engine.num.toNat, r.index.toNat)) ∧
    (opc = 1 → (eng, idx) ≠ (2, 4)) ∧ (opc = 3 → (eng = 0 → idx ≤ 7) ∧ (eng = 1 → idx ≤ 3)) ∧ (4 ≤ opc → idx = 0)

/-- The four tests of R66, on the number a word holds. -/
abbrev passesTests (w : Nat) : Prop :=
  (w / 2 ^ 16 % 2 ^ 4 = 0 ∧ w % 2 ^ 8 = 0) ∧ fieldsLegal (w / 2 ^ 24) (w / 2 ^ 20 % 2 ^ 4) (w / 2 ^ 8 % 2 ^ 8)

/-- Each row of the table passes the tests. -/
theorem passesTests_of_mem_legalWords {w : CmdWord} (h : w ∈ legalWords) : passesTests w.toNat := by
  have hall : legalWords.all (fun w => decide (passesTests w.toNat)) = true := by decide
  exact decide_eq_true_iff.1 (List.all_eq_true.1 hall w h)

/-- Each command's word is a row of the table. -/
theorem Instr.word_mem_legalWords {i : Instr} (hwf : i.wf = true) : i.word ∈ legalWords := by
  obtain ⟨e, rfl⟩ | ⟨e, rfl⟩ | ⟨r, v, rfl⟩ | ⟨r, rfl⟩ | ⟨p, rfl⟩ | ⟨p, rfl⟩ | ⟨v, rfl⟩ | rfl := Machine.instr_cases i
  · cases e <;> decide
  · cases e <;> decide
  · have hcells : ∀ r ∈ CfgReg.all, r.writable = true → mkWord Opc.wrcfg.num r.engine.num r.index ∈ legalWords := by decide
    exact hcells r r.mem_all hwf
  · have hcells : ∀ r ∈ CfgReg.all, (Instr.rdcfg r).word ∈ legalWords := by decide
    exact hcells r r.mem_all
  · cases p <;> decide
  · revert hwf
    cases p <;> decide
  · change mkWord Opc.hpush.num Engine.lfg.num 0 ∈ legalWords
    decide
  · decide

/-- What decodes, by the numbers in the fields of the word (R61, R65, R66). -/
theorem decode_eq_ok_iff_toNat {c : Command} {i : Instr} :
    decode c = .ok i ↔
      i.wf = true ∧
        ((c.word.toNat / 2 ^ 16 % 2 ^ 4 = 0 ∧ c.word.toNat % 2 ^ 8 = 0) ∧ (opcOf i).num.toNat = c.word.toNat / 2 ^ 24 ∧
          i.engine.num.toNat = c.word.toNat / 2 ^ 20 % 2 ^ 4 ∧ (idxOf i).toNat = c.word.toNat / 2 ^ 8 % 2 ^ 8) ∧
        (i.usesData = true → c.data = i.data) := by
  have hopc : c.opc = (opcOf i).num ↔ (opcOf i).num.toNat = c.word.toNat / 2 ^ 24 := by
    rw [← c.opc_toNat, BitVec.toNat_inj, eq_comm]
  have heng : c.eng = i.engine.num ↔ i.engine.num.toNat = c.word.toNat / 2 ^ 20 % 2 ^ 4 := by
    rw [← c.eng_toNat, BitVec.toNat_inj, eq_comm]
  have hidx : c.idx = idxOf i ↔ (idxOf i).toNat = c.word.toNat / 2 ^ 8 % 2 ^ 8 := by
    rw [← c.idx_toNat, BitVec.toNat_inj, eq_comm]
  have hz1 : c.z1 = 0 ↔ c.word.toNat / 2 ^ 16 % 2 ^ 4 = 0 := by rw [← c.z1_toNat, ← BitVec.toNat_inj]; rfl
  have hz0 : c.z0 = 0 ↔ c.word.toNat % 2 ^ 8 = 0 := by rw [← c.z0_toNat, ← BitVec.toNat_inj]; rfl
  rw [decode_eq_ok_iff, Command.word_eq_iff, hopc, heng, hidx, hz1, hz0]

theorem Opc.exists_num_eq {n : Nat} (h : 1 ≤ n ∧ n ≤ 7) : ∃ o : Opc, o.num.toNat = n := by
  have hall : ∀ n ≤ 7, 1 ≤ n → (Opc.ofNat? n).isSome = true := by decide
  simpa only [Option.isSome_iff_exists, Opc.ofNat?_eq_some_iff] using hall n h.2 h.1

theorem Engine.exists_num_eq {n : Nat} (h : n ≤ 5) : ∃ e : Engine, e.num.toNat = n := by
  have hall : ∀ n ≤ 5, (Engine.ofNat? n).isSome = true := by decide
  simpa only [Option.isSome_iff_exists, Engine.ofNat?_eq_some_iff] using hall n h

theorem Preset.exists_num_eq {n : Nat} (h : n ≤ 7) : ∃ p : Preset, p.num.toNat = n := by
  have hall : ∀ n ≤ 7, (Preset.ofNat? n).isSome = true := by decide
  simpa only [Option.isSome_iff_exists, Preset.ofNat?_eq_some_iff] using hall n h

theorem Preset.forLehmer_iff (p : Preset) : p.forLehmer = true ↔ p.num.toNat ≤ 3 := by cases p <;> decide

/-- Fields that pass tests 2 to 4 are those of a command, whatever the data. -/
theorem exists_instr_of_fieldsLegal {opc eng idx : Nat} (h : fieldsLegal opc eng idx) (d : Word) :
    ∃ i : Instr, i.wf = true ∧ ((opcOf i).num.toNat = opc ∧ i.engine.num.toNat = eng ∧ (idxOf i).toNat = idx) ∧
      (i.usesData = true → d = i.data) := by
  obtain ⟨hopc, ⟨hldpre, hhist, heng⟩, hcells, hhlen, hpreset, hidx⟩ := h
  obtain ⟨o, rfl⟩ := Opc.exists_num_eq hopc
  cases o with
  | wrcfg =>
    obtain ⟨r, -, hr⟩ := List.mem_map.1 (hcells (by decide))
    obtain ⟨rfl, rfl⟩ := Prod.mk.inj hr
    have hw : r ≠ .lfg .hlen := by rintro rfl; exact hhlen rfl rfl
    exact ⟨.wrcfg r d, r.writable_iff.2 hw, ⟨rfl, rfl, rfl⟩, fun _ => rfl⟩
  | rdcfg =>
    obtain ⟨r, -, hr⟩ := List.mem_map.1 (hcells (by decide))
    obtain ⟨rfl, rfl⟩ := Prod.mk.inj hr
    exact ⟨.rdcfg r, rfl, ⟨rfl, rfl, rfl⟩, nofun⟩
  | ldpre =>
    obtain ⟨hlcg, hleh⟩ := hpreset rfl
    obtain rfl | rfl : eng = 0 ∨ eng = 1 := Nat.le_one_iff_eq_zero_or_eq_one.1 (hldpre rfl)
    · obtain ⟨p, rfl⟩ := Preset.exists_num_eq (hlcg rfl)
      exact ⟨.ldpreLcg p, rfl, ⟨rfl, rfl, rfl⟩, nofun⟩
    · obtain ⟨p, rfl⟩ := Preset.exists_num_eq ((hleh rfl).trans (by decide))
      exact ⟨.ldpreLeh p, p.forLehmer_iff.2 (hleh rfl), ⟨rfl, rfl, rfl⟩, nofun⟩
  | cons =>
    obtain ⟨e, rfl⟩ := Engine.exists_num_eq (heng (by decide))
    exact ⟨.cons e, by simp [hidx (by decide)]⟩
  | adv =>
    obtain ⟨e, rfl⟩ := Engine.exists_num_eq (heng (by decide))
    exact ⟨.adv e, by simp [hidx (by decide)]⟩
  | hpush =>
    obtain rfl := hhist (by decide)
    obtain rfl := hidx (by decide)
    exact ⟨.hpush d, rfl, ⟨rfl, rfl, rfl⟩, fun _ => rfl⟩
  | hclr =>
    obtain rfl := hhist (by decide)
    obtain rfl := hidx (by decide)
    exact ⟨.hclr, rfl, ⟨rfl, rfl, rfl⟩, nofun⟩

/-- R66: a word that passes the four tests decodes, with any data. -/
theorem exists_decode_ok_of_passesTests {c : Command} (h : passesTests c.word.toNat) : ∃ i, decode c = .ok i := by
  obtain ⟨hz, hfields⟩ := h
  obtain ⟨i, hwf, hf, hd⟩ := exists_instr_of_fieldsLegal hfields c.data
  exact ⟨i, decode_eq_ok_iff_toNat.2 ⟨hwf, ⟨hz, hf⟩, hd⟩⟩

theorem mem_legalWords_of_decode_ok {c : Command} {i : Instr} (h : decode c = .ok i) : c.word ∈ legalWords := by
  obtain ⟨hwf, hword, -⟩ := decode_eq_ok_iff.1 h
  exact hword ▸ Instr.word_mem_legalWords hwf

end Sys2Proof

open Sys2Proof Sys2Proof.Machine

/-- Settles O1: an encoded command has its own word and data. -/
theorem decodingAnEncodedCommandGivesItBack : Obligations.DecodingAnEncodedCommandGivesItBack :=
  fun _ hwf => decode_eq_ok_iff.2 ⟨hwf, rfl, fun _ => rfl⟩

/-- Settles O2: the word is the command's word, and the data counts only where the command uses it. -/
theorem encodingADecodedCommandGivesTheWordBack : Obligations.EncodingADecodedCommandGivesTheWordBack := by
  intro c i h
  obtain ⟨hwf, hword, hdata⟩ := decode_eq_ok_iff.1 h
  refine ⟨hwf, hword.symm, ?_, fun hu d => decode_eq_ok_iff.2 ⟨hwf, hword, by simp [hu]⟩⟩
  split
  · exact (hdata ‹_›).symm
  · exact Instr.data_of_not_usesData (by simpa using ‹¬ i.usesData = true›)

/-- Settles O3: what stands in the table passes the tests, what passes them decodes, and what decodes stands in the table. -/
theorem theLegalWordsAreThe67OfTheTable : Obligations.TheLegalWordsAreThe67OfTheTable := by
  refine ⟨rfl, by decide, fun c => ?_⟩
  have hdecode (h : c.word ∈ legalWords) : ∃ i, decode c = .ok i :=
    exists_decode_ok_of_passesTests (passesTests_of_mem_legalWords h)
  have htests : c.word ∈ legalWords ↔ passesTests c.word.toNat :=
    ⟨passesTests_of_mem_legalWords, fun h => (exists_decode_ok_of_passesTests h).elim fun _ => mem_legalWords_of_decode_ok⟩
  refine ⟨htests, hdecode, fun hnot s es hhost => ?_⟩
  cases hd : decode c with
  | ok i => exact absurd (mem_legalWords_of_decode_ok hd) hnot
  | error x => exact step_eq_next_iff.2 (.illegal c es x hhost hd)

/-- Settles O4: the fields of the encoded command, read as numbers. -/
theorem everyLegalWordHasTheOneLayout : Obligations.EveryLegalWordHasTheOneLayout := by
  intro i _ w
  obtain ⟨hopc, heng, hz1, hidx, hz0⟩ := fields_encode i
  have hz1' : w / 2 ^ 16 % 2 ^ 4 = 0 := by rw [← Command.z1_toNat, hz1]; rfl
  have hz0' : w % 2 ^ 8 = 0 := by rw [← Command.z0_toNat, hz0]; rfl
  refine ⟨by omega, hz1', hz0', ?_, ?_, ?_⟩
  · rw [← Command.eng_toNat, heng]
  · rw [← Command.opc_toNat, hopc]
    cases i <;> rfl
  · rw [← Command.idx_toNat, hidx]
    cases i <;> rfl

/-- Settles O5: each word and data is the encoding of the command named. -/
theorem wordsOfTheTableDecode : Obligations.WordsOfTheTableDecode := by
  have hdec := decodingAnEncodedCommandGivesItBack
  exact ⟨hdec (.wrcfg (.lcg .seed) 1) rfl, hdec (.rdcfg (.lfg .hlen)) rfl, hdec (.ldpreLcg .borland) rfl,
    hdec (.ldpreLeh .zx81) rfl, hdec .consLfsr rfl, hdec .advWh rfl, hdec (.hpush 6) rfl, hdec .hclr rfl⟩

end

section
/-! R69, R140, R144: the words HLOAD pushes are the history CONS.LFG loads. -/

namespace Sys2Proof.Machine

/-- Writing the word after the first `n` makes it the last of the first `n + 1`. -/
theorem WordMem.take_succ_write {m : WordMem} (hm : m.wf = true) (n : Nat) (v : Word) :
    (m.write n v).take (n + 1) = m.take n ++ [v] := by
  have hbelow : (m.write n v).take n = m.take n :=
    List.map_congr_left fun i hi => WordMem.read_write_other _ _ _ _ (List.mem_range.1 hi).ne
  rw [WordMem.take, List.range_succ, List.map_append, List.map_singleton, WordMem.read_write_same m n v hm, ← hbelow,
    WordMem.take]

/-- The words pushed so far, the oldest first: those of SEEDHIST below HLEN (R140). -/
def Lfg.pushed (e : Lfg) : List Word := e.seedHist.take e.hlen

/-- A push with room appends the word (R140). -/
theorem Lfg.pushed_push {e : Lfg} {k : Nat} (hm : e.seedHist.wf = true) (h : e.hlen < k) (v : Word) :
    (e.push k v).pushed = e.pushed ++ [v] := by
  rw [Lfg.push_room e k v h]
  exact WordMem.take_succ_write hm _ _

/-- Pushes with room append their words, in order, and touch neither configuration nor parameters. -/
theorem runAll_hpush {vs : List Word} {s t : State} (h : runAll (vs.map .hpush) s = some t) (hm : s.lfg.seedHist.wf = true)
    (hroom : s.lfg.hlen + vs.length ≤ s.params.kmax) :
    t.lfg.hlen = s.lfg.hlen + vs.length ∧ t.lfg.pushed = s.lfg.pushed ++ vs ∧ t.lfg.cfg = s.lfg.cfg ∧ t.params = s.params := by
  induction vs generalizing s with
  | nil =>
    obtain rfl : s = t := by simpa [runAll] using h
    simp
  | cons v vs ih =>
    rw [List.length_cons] at hroom
    have hlt : s.lfg.hlen < s.params.kmax := by omega
    have hpush := Lfg.push_room s.lfg s.params.kmax v hlt
    rw [List.map_cons, runAll_cons (.hpush v)] at h
    obtain ⟨hhlen, hpushed, hcfg, hparams⟩ := ih h (by simpa [hpush] using WordMem.wf_write _ _ v hm) (by simp [hpush]; omega)
    simp only [State.ok_lfg, Lfg.pushed_push hm hlt, List.append_assoc, List.singleton_append] at hhlen hpushed
    refine ⟨?_, hpushed, hcfg, hparams⟩
    simp only [hhlen, hpush, List.length_cons]
    omega

/-- HLOAD of at most KMAX words makes them the words pushed: after HCLR there is none (R69, R141). -/
theorem runAll_hload {vs : List Word} {s t : State} (h : runAll (.hclr :: vs.map .hpush) s = some t)
    (hm : s.lfg.seedHist.wf = true) (hroom : vs.length ≤ s.params.kmax) :
    t.lfg.hlen = vs.length ∧ t.lfg.pushed = vs ∧ t.lfg.cfg = s.lfg.cfg ∧ t.params = s.params := by
  rw [runAll_cons .hclr] at h
  obtain ⟨hhlen, hpushed, hcfg, hparams⟩ := runAll_hpush h hm (by simpa using hroom)
  exact ⟨hhlen.trans (Nat.zero_add _), hpushed, hcfg, hparams⟩

end Sys2Proof.Machine

open Sys2Proof Sys2Proof.Machine

/-- Settles O49: the words pushed are those of HLOAD, the checks of CONS.LFG hold, and it loads the words pushed. -/
theorem hloadThenConsGivesTheHistory : Obligations.HloadThenConsGivesTheHistory := by
  intro vs s t is hm hroom his hrun
  obtain rfl := Option.some.inj his
  obtain ⟨hhlen, hpushed, hcfg, hparams⟩ := runAll_hload hrun hm hroom
  refine ⟨hhlen, hcfg, fun hk hj hjk hmod hop => ?_⟩
  have hchecks : firstFailing (t.checks .lfg) = none := by
    simp [firstFailing_eq_none, State.checks, lfgChecks, hcfg, hparams, hhlen, hk, hj, hjk, hmod, hop, hroom]
  have hhist : t.lfg.seedHist.take t.lfg.cfg.k.toNat = vs := by rw [hcfg, hk, ← hhlen, ← Lfg.pushed, hpushed]
  rw [show Instr.consLfg = .cons .lfg from rfl, (Executes.cons .lfg hchecks).exec_eq, State.built, hhist]
  rfl

end

section
/-! R60, R240: a command accepted at the ports is answered after its latency. -/

namespace Sys2Proof.Machine

/-- Every command presented is answered, legal or not (R2, R64). -/
theorem rsp_isSome_of_step_command {s t : State} {c : Command} {es : List HostEvent} (hh : s.host = .command c :: es)
    (h : step s = .next t) : t.rsp.isSome = true := by
  rw [step_command hh] at h
  cases hd : decode c with
  | ok i =>
    obtain ⟨u, hu, hrsp⟩ := exec_answers i (s.withHost es)
    rw [accept_ok hd, hu] at h
    cases h
    exact hrsp
  | error x =>
    rw [accept_error hd] at h
    cases h
    rfl

theorem drive_nil (s : State) : drive [] s = idle (s.withHost []) := rfl

theorem Port.clocks_append (lat : Nat → Nat) (p : Port) (ins ins' : List Pins) :
    p.clocks lat (ins ++ ins') = (p.clocks lat ins).clocks lat ins' := List.foldl_append

theorem Port.ready_iff {p : Port} : p.ready = true ↔ p.inFlight = none ∧ p.core.rsp = none := by simp [Port.ready]

theorem Port.clocks_singleton (lat : Nat → Nat) (p : Port) (i : Pins) : p.clocks lat [i] = p.clock lat i := rfl

/-- With a command in flight the port is not ready, and it presents nothing while its state holds no response (R60). -/
theorem Port.outputs_inFlight {s : State} (hs : s.rsp = none) (f : Command × Nat) (n : Nat) (j : Pins) :
    (Port.mk s (some f) n).outputs j = ⟨false, none⟩ := by
  simp [Port.outputs, Port.ready, hs]

/-- Edges short of the latency only count it down (R240). -/
theorem Port.clocks_wait {lat : Nat → Nat} {ins : List Pins} {p : Port} {c : Command} {n : Nat}
    (hr : ∀ j ∈ ins, j.rst = false) (hf : p.inFlight = some (c, n + ins.length)) :
    p.clocks lat ins = { p with inFlight := some (c, n) } := by
  induction ins generalizing p with
  | nil => rw [← show p.inFlight = some (c, n) from hf]; rfl
  | cons i ins ih =>
    obtain ⟨hi, hins⟩ := List.forall_mem_cons.1 hr
    calc p.clocks lat (i :: ins) = (p.clock lat i).clocks lat ins := rfl
      _ = ({ p with inFlight := some (c, n + ins.length) } : Port).clocks lat ins :=
        congrArg (·.clocks lat ins) (Port.clock_wait hi hf)
      _ = { p with inFlight := some (c, n) } := ih hins rfl

end Sys2Proof.Machine

open Sys2Proof Sys2Proof.Machine

/-- Settles O58: the edges before the last count the latency down, and the last takes the command's step. -/
theorem anAcceptedCommandIsAnswered : Obligations.AnAcceptedCommandIsAnswered := by
  intro lat p i ins hready hi hvalid hins hlen
  obtain ⟨hf, hp⟩ := Port.ready_iff.1 hready
  have haccept : p.clock lat i = { p with inFlight := some (i.command, lat p.accepted), accepted := p.accepted + 1 } := by
    rw [Port.clock_accept hi hf hp, if_pos hvalid]
  have hwait {n : Nat} {waits : List Pins} (hw : ∀ j ∈ waits, j.rst = false) (hn : lat p.accepted = n + waits.length) :
      (p.clock lat i).clocks lat waits = { p with inFlight := some (i.command, n), accepted := p.accepted + 1 } := by
    rw [haccept, hn]
    exact Port.clocks_wait hw rfl
  refine ⟨fun k hk j => ?_, ?_⟩
  · have hn : lat p.accepted = lat p.accepted - k + (ins.take k).length := by rw [List.length_take]; omega
    rw [hwait (fun j hj => hins j (List.mem_of_mem_take hj)) hn]
    exact Port.outputs_inFlight hp _ _ j
  · obtain rfl | ⟨waits, last, rfl⟩ := List.eq_nil_or_concat' ins
    · cases hlen
    obtain ⟨hwaits, hlast⟩ := List.forall_mem_append.1 hins
    rw [List.forall_mem_singleton] at hlast
    have hanswer : (p.clock lat i).clocks lat (waits ++ [last]) =
        { p with core := drive [.command i.command] p.core, inFlight := none, accepted := p.accepted + 1 } := by
      rw [Port.clocks_append, hwait (n := 0) hwaits (by simpa using hlen.symm), Port.clocks_singleton,
        Port.clock_complete hlast rfl]
    have hstep := step_withHost_eq_drive [.command i.command] p.core
    obtain ⟨r, hr⟩ := Option.isSome_iff_exists.1 (rsp_isSome_of_step_command rfl hstep)
    rw [hanswer]
    refine ⟨_, r, hstep, hr, rfl, fun j j' hj hj' => ⟨?_, ?_⟩⟩
    · simp [Port.outputs, Port.ready, hj, hr]
    · rw [Port.clock_presented hj rfl (by simp [hr]), drive_nil]
      simp [Port.outputs, Port.ready, hj']

end

section
/-! R80, R82: WRCFG and RDCFG, their words and the cells they write and answer. -/

namespace Sys2Proof

/-- The number of the word `mkWord` lays out (R61). -/
theorem mkWord_toNat (op : BitVec 8) (en : BitVec 4) (ix : BitVec 8) :
    (mkWord op en ix).toNat = op.toNat * 2 ^ 24 + en.toNat * 2 ^ 20 + ix.toNat * 2 ^ 8 := by
  rw [mkWord, BitVec.toNat_ofNat]
  omega

end Sys2Proof

namespace Sys2Proof.Machine

/-- A command presented whose word stands for no command is answered ILLEGAL_CMD, and nothing else changes (R66). -/
theorem step_presented_of_decode_ne_ok {s : State} {es : List HostEvent} {c : Command} (hh : s.host = .command c :: es)
    (hd : ∀ i, decode c ≠ .ok i) : step s = .next ((s.withHost es).fail .illegalCmd) := by
  have hs : s.withHost (.command c :: es) = s := by rw [← hh]; rfl
  rw [← step_of_decode_ne_ok s es hd, hs]

end Sys2Proof.Machine

open Sys2Proof Sys2Proof.Machine

/-- Settles O27, by what a write of one cell and the clearing of VALID leave unchanged, and by which WRCFG words decode. -/
theorem wrcfgStoresTheWordAndClearsValid : Obligations.WrcfgStoresTheWordAndClearsValid := by
  refine ⟨fun r v => mkWord_toNat _ _ _, fun r v s hr => ?_, fun v s => exec_of_not_wf _ s rfl, fun e i d s es hnone hh => ?_⟩
  · have hw := r.writable_iff.2 hr
    have hx := Executes.wrcfg (s := s) r v hw
    refine ⟨_, hx.exec_eq, ?_, fun r' hne => ?_, by simp, by simp, fun e => ?_, ?_, fun e he => hx.frame he, rfl,
      hx.host_params.1, hx.host_params.2⟩
    · simp [State.readCfg_writeCfg_same s v r hw]
    · simp [State.readCfg_writeCfg_other s v r r' hne]
    · exact State.sameRegs_trans (State.sameEngine_respond _ _ e).sameRegs
        (State.sameRegs_trans (State.sameRegs_clearValid _ _ e) (s.sameRegs_writeCfg v r e))
    · simp [State.valid_clearValid]
  · refine step_presented_of_decode_ne_ok (c := ⟨mkWord Opc.wrcfg.num e i, d⟩) hh fun j hj => ?_
    obtain ⟨r, hpair, hr, -⟩ := decode_wrcfg_eq_ok_iff.1 hj
    exact hnone r hr hpair

/-- Settles O28, cell by cell, and by which RDCFG words decode. -/
theorem rdcfgAnswersTheRegister : Obligations.RdcfgAnswersTheRegister := by
  refine ⟨fun e i d s es hnone hh => ?_, fun r => mkWord_toNat _ _ _,
    fun r s => ⟨s.readCfg r, (Executes.rdcfg r).exec_eq, ?_⟩⟩
  · refine step_presented_of_decode_ne_ok (c := ⟨mkWord Opc.rdcfg.num e i, d⟩) hh fun j hj => ?_
    obtain ⟨r, hpair, -⟩ := decode_rdcfg_eq_ok_iff.1 hj
    exact hnone r hpair
  · rcases r with r | r | r | r | r | r <;> cases r <;> rfl

end

section
/-! R84, R86, R89: CONS and ADV of any engine, and the sequence of responses they get. -/

namespace Sys2Proof.Machine

/-! ## Runs of commands -/

/-- What every command of a list keeps holds after the list. -/
theorem runAll_keeps {P : State → Prop} {is : List Instr} {s t : State}
    (hstep : ∀ i ∈ is, ∀ u v, Executes u i v → P u → P v) (hs : P s) (h : runAll is s = some t) : P t := by
  induction is generalizing s with
  | nil =>
    obtain rfl : s = t := by simpa [runAll] using h
    exact hs
  | cons i is ih =>
    obtain ⟨hi, his⟩ := List.forall_mem_cons.1 hstep
    obtain ⟨u, hu⟩ := exists_executes i s
    rw [runAll_cons hu] at h
    exact ih his (hi s u hu hs) h

/-! ## The configuration while no command configures -/

theorem State.sameConfig_refl (s : State) (e : Engine) : s.sameConfig s e := by
  obtain ⟨-, hcfg, -⟩ := s.alike_refl e
  exact hcfg

/-- CONS, ADV and RDCFG leave the configuration of every engine (R11, R19, R42). -/
theorem Executes.sameConfig {i : Instr} {s t u : State} {e : Engine} (h : Executes s i t) (hi : configures i = false)
    (hu : s.sameConfig u e) : t.sameConfig u e := by
  cases h with
  | illFormed | rdcfg | consFails | advFails => cases e <;> exact hu
  | cons e' | adv e' => cases e' <;> cases e <;> exact hu
  | wrcfg | ldpreLcg | ldpreLeh | hpush | hclr => cases hi

/-! ## Responses from states with the same configuration -/

section

variable {s t : State} {e : Engine}

/-- A CONS that fails finds the engine not constructed (R12, R84). -/
theorem State.Inv.valid_eq_false_of_checks_fail {cause : Status} (hs : s.Inv) (hc : firstFailing (s.checks e) = some cause) :
    s.valid e = false := by
  obtain ⟨hvalidated, -⟩ := hs
  rw [Bool.eq_false_iff]
  intro hv
  simp [hvalidated e hv] at hc

/-- From the same configuration, CONS answers the same, and leaves the engine the same up to what the spec leaves unspecified:
built from that configuration, or not constructed as before. -/
theorem State.sameConfig.cons (h : s.sameConfig t e) (hp : s.params = t.params) (hs : s.Inv) (ht : t.Inv) :
    ∃ s' t', Executes s (.cons e) s' ∧ Executes t (.cons e) t' ∧ s'.alike t' e ∧ s'.rsp = t'.rsp := by
  have hchecks := h.checks_eq hp
  cases hc : firstFailing (s.checks e) with
  | some cause =>
    have hct : firstFailing (t.checks e) = some cause := by rwa [← hchecks]
    have halike := State.alike_of_not_valid (hs.valid_eq_false_of_checks_fail hc)
      (ht.valid_eq_false_of_checks_fail hct) h
    exact ⟨_, _, .consFails e cause hc, .consFails e cause hct, halike.respond _ _, rfl⟩
  | none => exact ⟨_, _, .cons e hc, .cons e (by rwa [← hchecks]), (h.built hc).respond _ _, rfl⟩

/-- Commands to an engine get the same responses from any two states of the invariant that are alike on it (R30). -/
theorem State.alike.responses_eq {is : List Instr} (h : s.alike t e) (his : ∀ i ∈ is, i.engine = e) (hp : s.params = t.params)
    (hs : s.Inv) (ht : t.Inv) : responses is s = responses is t := by
  induction is generalizing s t with
  | nil => rfl
  | cons i is ih =>
    obtain ⟨rfl, his⟩ := List.forall_mem_cons.1 his
    obtain ⟨-, -, -, -, hsw, -⟩ := id hs
    obtain ⟨-, -, -, -, htw, -⟩ := id ht
    obtain ⟨s', hs'⟩ := exists_executes i s
    obtain ⟨t', ht', halike, hrsp⟩ := hs'.alike h hp hsw htw
    rw [responses_cons hs', responses_cons ht', hrsp,
      ih halike his (by rw [hs'.host_params.2, ht'.host_params.2, hp]) (hs'.inv hs) (ht'.inv ht)]

/-- A CONS and the commands to its engine after it get the responses their configuration determines (R89). -/
theorem State.sameConfig.responses_eq {is : List Instr} (h : s.sameConfig t e) (his : ∀ i ∈ is, i.engine = e)
    (hp : s.params = t.params) (hs : s.Inv) (ht : t.Inv) : responses (.cons e :: is) s = responses (.cons e :: is) t := by
  obtain ⟨s', t', hs', ht', halike, hrsp⟩ := h.cons hp hs ht
  rw [responses_cons hs', responses_cons ht', hrsp,
    halike.responses_eq his (by rw [hs'.host_params.2, ht'.host_params.2, hp]) (hs'.inv hs) (ht'.inv ht)]

end

theorem engine_of_mem_replicate_adv {n : Nat} {e : Engine} {i : Instr} (h : i ∈ List.replicate n (.adv e)) : i.engine = e := by
  rw [List.eq_of_mem_replicate h, Instr.engine_adv]

/-- A CONS and ADVs of its engine configure nothing. -/
theorem configures_of_mem_cons_advs {n : Nat} {e : Engine} {i : Instr} (h : i ∈ .cons e :: List.replicate n (.adv e)) :
    configures i = false := by
  obtain rfl | h := List.mem_cons.1 h
  · exact configures_cons e
  · rw [List.eq_of_mem_replicate h, configures_adv]

end Sys2Proof.Machine

open Sys2Proof Sys2Proof.Machine

/-- Settles O19: interleaved commands do not show, and CONS forgets all but the configuration. -/
theorem aSequenceIsDeterminedByItsConfiguration : Obligations.ASequenceIsDeterminedByItsConfiguration := by
  intro e n is js s t his hjs hs ht hp hcfg
  rw [fromEngine_responses is (s.sameEngine_refl e) rfl, fromEngine_responses js (t.sameEngine_refl e) rfl, his, hjs]
  exact hcfg.responses_eq (fun _ => engine_of_mem_replicate_adv) hp hs ht

/-- Settles O20: the first run keeps the invariant and the configuration, which determine the second. -/
theorem consRestartsTheSequence : Obligations.ConsRestartsTheSequence := by
  intro e n s t hs hrun
  have ht : t.Inv := runAll_keeps (fun _ _ _ _ hx => hx.inv) hs hrun
  have hp : t.params = s.params := runAll_keeps (P := (·.params = s.params)) (fun _ _ _ _ hx => hx.host_params.2.trans) rfl hrun
  have hcfg : t.sameConfig s e := runAll_keeps (P := (·.sameConfig s e))
    (fun _ hi _ _ hx => hx.sameConfig (configures_of_mem_cons_advs hi)) (s.sameConfig_refl e) hrun
  exact hcfg.responses_eq (fun _ => engine_of_mem_replicate_adv) hp ht hs

/-- Settles O25: the configuration of a constructed engine passes its checks. -/
theorem consCannotFailWhileConstructed : Obligations.ConsCannotFailWhileConstructed := by
  intro s t e hs hv h
  obtain ⟨hvalidated, -⟩ := hs
  rw [(Executes.cons e (hvalidated e hv)).exec_eq] at h
  cases h
  rfl

/-- Settles O39: the first check of each engine but MSQ fails on a configuration of zeros. -/
theorem consRightAfterReset : Obligations.ConsRightAfterReset := fun _ =>
  ⟨(Executes.consFails .lcg .mulRange rfl).exec_eq, (Executes.consFails .leh .mulRange rfl).exec_eq,
    (Executes.consFails .lfg .lagWindow rfl).exec_eq, (Executes.consFails .lfsr .lfsrZeroSeed rfl).exec_eq,
    (Executes.consFails .wh .whSeedRange rfl).exec_eq, _, (Executes.cons .msq rfl).exec_eq, rfl, rfl, rfl⟩

/-- Settles O40, by the guard of ADV. -/
theorem advOfAnUnconstructedEngineFails : Obligations.AdvOfAnUnconstructedEngineFails :=
  fun e _ hv => (Executes.advFails e hv).exec_eq

end

section
/-! R90, R91: the intermediates of constructed engines fit their datapaths. -/

namespace Sys2Proof.Machine

/-- A 64-bit multiply-add fits 128 bits (R90). -/
theorem toNat_mul_toNat_add_toNat_lt (a x c : Word) : a.toNat * x.toNat + c.toNat < 2 ^ 128 := by
  have hprod : a.toNat * x.toNat ≤ (2 ^ 64 - 1) * (2 ^ 64 - 1) := Nat.mul_le_mul (by omega) (by omega)
  omega

/-- So does a 64-bit product. -/
theorem toNat_mul_toNat_lt (a x : Word) : a.toNat * x.toNat < 2 ^ 128 :=
  (Nat.le_add_right _ _).trans_lt (toNat_mul_toNat_add_toNat_lt a x 0)

/-- The operators of LFG fit 65 bits, 128 bits, 64 bits and a signed 65-bit difference (R90). -/
theorem operators_fit (u v : Word) :
    u.toNat + v.toNat ≤ 2 ^ 65 - 2 ∧ u.toNat * v.toNat < 2 ^ 128 ∧ (u ^^^ v).toNat < 2 ^ 64 ∧
      -(2 ^ 64 - 1 : Int) ≤ (u.toNat : Int) - v.toNat ∧ (u.toNat : Int) - v.toNat ≤ 2 ^ 64 - 1 :=
  ⟨by omega, toNat_mul_toNat_lt u v, (u ^^^ v).isLt, by omega, by omega⟩

/-- The square of a Middle-Square seed fits twice its width, and the middle digits fit the width (R90, R172). -/
theorem Msq.row.fits {e : Msq} (h : e.row) :
    e.x.toNat * e.x.toNat < 2 ^ (2 * msqBits e.cfg.width) ∧
      mid (e.x.toNat * e.x.toNat) e.cfg.digits.toNat < 2 ^ msqBits e.cfg.width := by
  obtain ⟨-, hdigits, hx⟩ := h
  refine ⟨?_, (mid_lt _ _).trans (ten_pow_lt_two_pow_msqBits hdigits)⟩
  rw [two_mul, pow_add]
  exact Nat.mul_lt_mul'' hx hx

/-- The products of a Wichmann-Hill transition fit 23 bits, and the sum of NUM 47 (R90). -/
theorem Wh.row.fits {e : Wh} (h : e.row) :
    171 * e.s0.toNat < 2 ^ 23 ∧ 172 * e.s1.toNat < 2 ^ 23 ∧ 170 * e.s2.toNat < 2 ^ 23 ∧
      e.s0.toNat * 918999161 + e.s1.toNat * 917846887 + e.s2.toNat * 917362583 < 2 ^ 47 := by
  obtain ⟨⟨-, h0⟩, ⟨-, h1⟩, -, h2⟩ := h
  omega

end Sys2Proof.Machine

open Sys2Proof Sys2Proof.Machine

/-- Settles O26, engine by engine, from the rows of R29. -/
theorem noIntermediateOverflows : Obligations.NoIntermediateOverflows := by
  rintro s ⟨-, ⟨hlcg, hleh, hlfg, -, hmsq, hwh⟩, -⟩
  refine ⟨fun hv => ?_, fun hv => ?_, fun hv => ?_, operators_fit, fun hv => (hmsq hv).fits, fun hv => (hwh hv).fits⟩
  · obtain ⟨hmod, -⟩ := hlcg hv
    exact ⟨hmod, toNat_mul_toNat_add_toNat_lt _ _ _⟩
  · obtain ⟨hmod, -⟩ := hleh hv
    exact ⟨hmod, toNat_mul_toNat_lt _ _⟩
  · obtain ⟨hmod, -⟩ := hlfg hv
    exact hmod

end

section
/-! R100 to R104: the preset ROM, LDPRE, and CONS after it. -/

namespace Sys2Proof

/-- The LDPRE words that decode: those of the presets, for LEH of the ones the Lehmer engine accepts (R66, R101). -/
theorem decode_ldpre_eq_ok_iff {en : BitVec 4} {ix : BitVec 8} {d : Word} {i : Instr} :
    decode ⟨mkWord Opc.ldpre.num en ix, d⟩ = .ok i ↔
      ∃ p : Preset, p.num = ix ∧
        ((en = Engine.lcg.num ∧ i = .ldpreLcg p) ∨ (en = Engine.leh.num ∧ p.forLehmer = true ∧ i = .ldpreLeh p)) := by
  rw [decode_mkWord_eq_ok_iff]
  simp only [decodeOperand_ldpre_eq_some_iff, BitVec.toNat_inj]
  constructor
  · rintro ⟨e, rfl, -, p, hn, ⟨rfl, rfl⟩ | ⟨rfl, hp, rfl⟩⟩
    · exact ⟨p, hn, .inl ⟨rfl, rfl⟩⟩
    · exact ⟨p, hn, .inr ⟨rfl, hp, rfl⟩⟩
  · rintro ⟨p, hn, ⟨rfl, rfl⟩ | ⟨rfl, hp, rfl⟩⟩
    · exact ⟨.lcg, rfl, rfl, p, hn, .inl ⟨rfl, rfl⟩⟩
    · exact ⟨.leh, rfl, rfl, p, hn, .inr ⟨rfl, hp, rfl⟩⟩

theorem Preset.num_le (p : Preset) : p.num.toNat ≤ 7 := by cases p <;> decide

end Sys2Proof

namespace Sys2Proof.Machine

/-! ## The fields of OBR, as numbers (R15) -/

theorem obrPresent_iff {obr : Word} : obrPresent obr = true ↔ obr.toNat % 2 = 1 := by
  simp [obrPresent, BitVec.getLsbD, Nat.testBit_zero]

theorem obrStart_eq (obr : Word) : obrStart obr = obr.toNat / 2 ^ 8 % 2 ^ 8 := by
  rw [obrStart, BitVec.extractLsb'_toNat, Nat.shiftRight_eq_div_pow]

theorem obrEnd_eq (obr : Word) : obrEnd obr = obr.toNat / 2 ^ 16 % 2 ^ 8 := by
  rw [obrEnd, BitVec.extractLsb'_toNat, Nat.shiftRight_eq_div_pow]

theorem obrReservedZero_iff {obr : Word} :
    obrReservedZero obr = true ↔ obr.toNat / 2 % 2 ^ 7 = 0 ∧ obr.toNat / 2 ^ 24 = 0 := by
  have hlow : obr.extractLsb' 1 7 = 0 ↔ obr.toNat / 2 % 2 ^ 7 = 0 := by
    rw [← BitVec.toNat_inj, BitVec.extractLsb'_toNat, Nat.shiftRight_eq_div_pow]
    rfl
  have hhigh : obr.extractLsb' 24 40 = 0 ↔ obr.toNat / 2 ^ 24 = 0 := by
    have hobr : obr.toNat / 2 ^ 24 < 2 ^ 40 := by omega
    rw [← BitVec.toNat_inj, BitVec.extractLsb'_toNat, Nat.shiftRight_eq_div_pow, Nat.mod_eq_of_lt hobr]
    rfl
  rw [obrReservedZero, decide_eq_true_iff, hlow, hhigh]

/-! ## CONS after LDPRE (R104) -/

/-- The parameters of every ROM row pass the checks of R115, whatever the seed. -/
theorem rom_passes (p : Preset) :
    let row := rom p
    let obr := row.obr.toNat
    row.multiplier.toNat < row.modulus.toNat ∧ row.increment.toNat < row.modulus.toNat ∧
      obr / 2 % 2 ^ 7 = 0 ∧ obr / 2 ^ 24 = 0 ∧
      (obr % 2 = 1 → obr / 2 ^ 8 % 2 ^ 8 < obr / 2 ^ 16 % 2 ^ 8 ∧ obr / 2 ^ 8 % 2 ^ 8 ≤ 63 ∧ obr / 2 ^ 16 % 2 ^ 8 ≤ 64) := by
  cases p <;> decide

/-- Of the checks of CONS.LCG, all but the third hold of a ROM row. -/
theorem firstFailing_lcgChecks_load (c : LcgCfg) (p : Preset) :
    firstFailing (lcgChecks (c.load p)) = if c.seed.toNat < (rom p).modulus.toNat then none else some .seedRange := by
  obtain ⟨hmul, hinc, hlow, hhigh, hrange⟩ := rom_passes p
  have hreserved := obrReservedZero_iff.2 ⟨hlow, hhigh⟩
  rw [← obrPresent_iff, ← obrStart_eq, ← obrEnd_eq] at hrange
  simp only [lcgChecks, firstFailing, decide_eq_true_eq]
  cases hp : obrPresent (rom p).obr with
  | false => simp [LcgCfg.load, hmul, hinc, hreserved, hp]
  | true =>
    obtain ⟨hlt, hstart, hend⟩ := hrange hp
    simp [LcgCfg.load, hmul, hinc, hreserved, hlt, hstart, hend]

/-- Of the checks of CONS.LEH, the first holds of a ROM row. -/
theorem firstFailing_lehChecks_load (c : LehCfg) (p : Preset) :
    firstFailing (lehChecks (c.load p)) = if c.seed.toNat < (rom p).modulus.toNat then none else some .seedRange := by
  obtain ⟨hmul, -⟩ := rom_passes p
  simp only [lehChecks, firstFailing, decide_eq_true_eq]
  exact if_pos hmul

/-- CONS of an engine where one condition decides which check fails first, if any (R84). -/
theorem exec_cons_of_firstFailing_eq_ite {s : State} {e : Engine} {P : Prop} [Decidable P] {cause : Status}
    (h : firstFailing (s.checks e) = if P then none else some cause) :
    exec (.cons e) s = .next (if P then (s.built e).ok 0 0 else s.fail cause) := by
  by_cases hP : P
  · rw [if_pos hP] at h ⊢
    exact (Executes.cons e h).exec_eq
  · rw [if_neg hP] at h ⊢
    exact (Executes.consFails e cause h).exec_eq

end Sys2Proof.Machine

open Sys2Proof Sys2Proof.Machine

/-- Settles O29: the numbers and the rows are those listed. -/
theorem theRomHoldsTheTable : Obligations.TheRomHoldsTheTable := ⟨by decide, by decide⟩

/-- Settles O30, by the outcomes of LDPRE and by which LDPRE words decode. -/
theorem ldpreLoadsTheRow : Obligations.LdpreLoadsTheRow := by
  refine ⟨fun n d s es => ⟨fun hn hh => ?_, fun hn hh => ?_⟩, fun p s => ⟨mkWord_toNat _ _ _, (Executes.ldpreLcg p).exec_eq,
    mkWord_toNat _ _ _, fun hp => (Executes.ldpreLeh p (p.forLehmer_iff.2 hp)).exec_eq, fun hp => ?_⟩⟩
  · refine step_presented_of_decode_ne_ok (c := ⟨mkWord Opc.ldpre.num Engine.lcg.num n, d⟩) hh fun i hi => ?_
    obtain ⟨p, rfl, -⟩ := decode_ldpre_eq_ok_iff.1 hi
    exact absurd p.num_le (by omega)
  · refine step_presented_of_decode_ne_ok (c := ⟨mkWord Opc.ldpre.num Engine.leh.num n, d⟩) hh fun i hi => ?_
    obtain ⟨p, rfl, ⟨he, -⟩ | ⟨-, hp, -⟩⟩ := decode_ldpre_eq_ok_iff.1 hi
    · cases he
    · exact absurd (p.forLehmer_iff.1 hp) (by omega)
  · have hw : p.forLehmer = false := by
      rw [Bool.eq_false_iff, Ne, p.forLehmer_iff]
      omega
    exact exec_of_not_wf (.ldpreLeh p) s hw

/-- Settles O31: LDPRE leaves the seed, and every other check holds of a ROM row. -/
theorem afterAPresetOnlyTheSeedCanFail : Obligations.AfterAPresetOnlyTheSeedCanFail := by
  refine ⟨rom_passes, fun p s t h => ?_, fun p s t hp h => ?_⟩
  · cases (Executes.ldpreLcg p).exec_eq.symm.trans h
    exact exec_cons_of_firstFailing_eq_ite (e := .lcg) (firstFailing_lcgChecks_load s.lcg.cfg p)
  · cases (Executes.ldpreLeh p (p.forLehmer_iff.2 hp)).exec_eq.symm.trans h
    exact exec_cons_of_firstFailing_eq_ite (e := .leh) (firstFailing_lehChecks_load s.leh.cfg p)

end

section
/-! R115 to R119: CONS.LCG and ADV.LCG on numbers, and the LCG engine without increment as a Lehmer generator. -/

namespace Sys2Proof.Machine

/-! ## CONS.LCG (R115, R116) -/

/-- CONS answers the cause of the first failing check, or OK with the built state (R84). -/
theorem exec_cons_eq_elim (e : Engine) (s : State) :
    exec (.cons e) s = .next ((firstFailing (s.checks e)).elim ((s.built e).ok 0 0) s.fail) := by
  rw [exec_cons, construct]
  cases firstFailing (s.checks e) <;> rfl

/-- The first failing check of CONS.LCG, with the fields of OBR as numbers; the range counts only where it is PRESENT (R115). -/
theorem firstFailing_lcgChecks (c : LcgCfg) :
    let obr := c.obr.toNat
    let start := obr / 2 ^ 8 % 2 ^ 8
    let stop := obr / 2 ^ 16 % 2 ^ 8
    firstFailing (lcgChecks c) =
      if ¬ c.mul.toNat < c.mod.toNat then some .mulRange
      else if ¬ c.inc.toNat < c.mod.toNat then some .incRange
      else if ¬ c.seed.toNat < c.mod.toNat then some .seedRange
      else if ¬ (obr / 2 % 2 ^ 7 = 0 ∧ obr / 2 ^ 24 = 0) then some .obrInvalid
      else if obr % 2 = 1 ∧ ¬ (start < stop ∧ start ≤ 63 ∧ stop ≤ 64) then some .obrInvalid
      else none := by
  simp only [lcgChecks, firstFailing, decide_eq_true_eq, obrReservedZero_iff, obrStart_eq, obrEnd_eq, ← obrPresent_iff,
    ite_not]
  cases obrPresent c.obr with
  | false => simp
  | true => simp only [Bool.not_true, Bool.false_or, decide_eq_true_eq, true_and, ite_not, ite_and]

/-! ## ADV.LCG (R117, R118) -/

/-- Bits `start` up to but not including `stop` of a number (R118). -/
theorem mod_two_pow_div_two_pow_lt (x : Nat) {start stop : Nat} (h : start ≤ stop) :
    x % 2 ^ stop / 2 ^ start < 2 ^ (stop - start) := by
  refine Nat.div_lt_of_lt_mul ?_
  rw [← pow_add, Nat.add_sub_cancel' h]
  exact Nat.mod_lt _ (by positivity)

theorem lcgOut_of_no_range {obr : Word} (h : obr.toNat % 2 = 0) (x' : Word) : lcgOut obr x' = x' := by
  refine if_neg fun hp => ?_
  rw [obrPresent_iff] at hp
  omega

/-- With a range the output is its bits, and none is lost (R118). -/
theorem lcgOut_toNat_of_range {obr : Word} (h : obr.toNat % 2 = 1) (x' : Word) :
    (lcgOut obr x').toNat = x'.toNat % 2 ^ (obr.toNat / 2 ^ 16 % 2 ^ 8) / 2 ^ (obr.toNat / 2 ^ 8 % 2 ^ 8) := by
  rw [lcgOut, if_pos (obrPresent_iff.2 h), obrStart_eq, obrEnd_eq, BitVec.toNat_ofNat]
  exact Nat.mod_eq_of_lt (((Nat.div_le_self _ _).trans (Nat.mod_le _ _)).trans_lt x'.isLt)

/-! ## The LCG engine without increment (R119) -/

/-- The LCG engine `l` and the LEH engine `h`, both constructed, hold the same generator: no increment, no output range, the
same modulus, multiplier and state. -/
structure Lcg.IsLehmer (l : Lcg) (h : Leh) : Prop where
  inc : l.cfg.inc = 0
  noRange : l.cfg.obr.toNat % 2 = 0
  mod : l.cfg.mod = h.cfg.mod
  mul : l.cfg.mul = h.cfg.mul
  lcgValid : l.valid = true
  lehValid : h.valid = true
  x : l.x = h.x

namespace Lcg.IsLehmer

variable {l : Lcg} {h : Leh}

theorem next_eq (hl : l.IsLehmer h) : lcgNext l.cfg l.x = lehNext h.cfg h.x := by
  simp [lcgNext, lehNext, hl.inc, hl.mod, hl.mul, hl.x]

/-- An advance of both engines keeps them the same generator. -/
theorem advance (hl : l.IsLehmer h) : Lcg.IsLehmer { l with x := lcgNext l.cfg l.x } { h with x := lehNext h.cfg h.x } :=
  { hl with x := hl.next_eq }

/-- The two engines get the same responses, each in a block of its own. -/
theorem responses_eq {s t : State} (hl : s.lcg.IsLehmer t.leh) (n : Nat) :
    (responses (List.replicate n .advLcg) s).map Prod.snd = (responses (List.replicate n .advLeh) t).map Prod.snd := by
  induction n generalizing s t with
  | zero => rfl
  | succ n ih =>
    have hout : s.output .lcg = t.output .leh := by simp [State.output, lcgOut_of_no_range hl.noRange, hl.next_eq]
    rw [List.replicate_succ, List.replicate_succ, responses_cons (i := .advLcg) (.adv .lcg hl.lcgValid),
      responses_cons (i := .advLeh) (.adv .leh hl.lehValid)]
    simp only [List.map_cons, State.ok_rsp, hout]
    exact congrArg _ (ih hl.advance)

end Lcg.IsLehmer

end Sys2Proof.Machine

open Sys2Proof Sys2Proof.Machine

/-- Settles O33: on both sides the same chain of conditions, first of causes and then of states. -/
theorem consLcgChecksInOrder : Obligations.ConsLcgChecksInOrder := by
  refine ⟨rfl, fun s => ?_⟩
  dsimp only
  rw [show Instr.consLcg = .cons .lcg from rfl, exec_cons_eq_elim, State.checks, firstFailing_lcgChecks]
  split_ifs <;> rfl

/-- Settles O41: a residue of a 64-bit modulus fits the register, and so do the bits of a range. -/
theorem advLcgMultipliesAddsAndExtracts : Obligations.AdvLcgMultipliesAddsAndExtracts := by
  refine ⟨rfl, fun s hv => (Executes.advFails .lcg hv).exec_eq, fun s hv hm => ?_⟩
  refine ⟨_, _, (Executes.adv .lcg hv).exec_eq, lcgNext_toNat _ _ hm, ?_, fun hp hlt => ?_⟩
  · split_ifs with hp
    · exact congrArg BitVec.toNat (lcgOut_of_no_range hp _)
    · exact lcgOut_toNat_of_range (Nat.mod_two_ne_zero.1 hp) _
  · exact (lcgOut_toNat_of_range hp _).trans_lt (mod_two_pow_div_two_pow_lt _ hlt.le)

/-- Settles O43: the two engines stay the same generator, advance by advance. -/
theorem lcgWithoutIncrementIsLehmer : Obligations.LcgWithoutIncrementIsLehmer :=
  fun _ n hinc hobr hmod hmul hlcg hleh hx => Lcg.IsLehmer.responses_eq ⟨hinc, hobr, hmod, hmul, hlcg, hleh, hx⟩ n

end

section
/-! R130 to R132: CONS.LEH and ADV.LEH on numbers. -/

namespace Sys2Proof.Machine

/-- The first failing check of CONS.LEH, on numbers (R130). -/
theorem firstFailing_lehChecks (c : LehCfg) :
    firstFailing (lehChecks c) =
      if ¬ c.mul.toNat < c.mod.toNat then some .mulRange
      else if ¬ c.seed.toNat < c.mod.toNat then some .seedRange
      else none := by
  simp only [lehChecks, firstFailing, decide_eq_true_eq, ite_not]

/-- Zero is a fixed point of the multiplication, whatever the modulus (R132). -/
@[simp] theorem lehNext_zero (c : LehCfg) : lehNext c 0 = 0 := by
  simp [lehNext]

end Sys2Proof.Machine

open Sys2Proof Sys2Proof.Machine

/-- Settles O34: on both sides the same chain of conditions, first of causes and then of states. -/
theorem consLehChecksInOrder : Obligations.ConsLehChecksInOrder := by
  refine ⟨rfl, fun s => ?_⟩
  dsimp only
  rw [show Instr.consLeh = .cons .leh from rfl, exec_cons_eq_elim, State.checks, firstFailing_lehChecks]
  split_ifs <;> rfl

/-- Settles O42: the residue of the exact product fits the register, and the product with 0 is 0. -/
theorem advLehMultiplies : Obligations.AdvLehMultiplies := by
  refine ⟨rfl, fun s hv => (Executes.advFails .leh hv).exec_eq, fun s hv hm => ?_⟩
  refine ⟨_, (Executes.adv .leh hv).exec_eq, lehNext_toNat _ _ hm, fun hx => ?_⟩
  rw [hx, lehNext_zero]

end

section
/-! R140 to R146: HPUSH, HCLR, CONS.LFG and ADV.LFG, on numbers and on the words of SEEDHIST and H. -/

namespace Sys2Proof.Machine

/-! ## HPUSH (R140) -/

/-- A push with room stores its word at index HLEN and leaves the other words. -/
theorem Lfg.read_push_room {e : Lfg} {k : Nat} (hm : e.seedHist.wf = true) (h : e.hlen < k) (v : Word) :
    (e.push k v).seedHist.read e.hlen = v ∧ ∀ i, i ≠ e.hlen → (e.push k v).seedHist.read i = e.seedHist.read i := by
  rw [Lfg.push_room e k v h]
  exact ⟨WordMem.read_write_same _ _ v hm, fun i hi => WordMem.read_write_other _ _ i v hi⟩

/-! ## CONS.LFG (R143) -/

/-- The first failing check of CONS.LFG, on numbers. -/
theorem firstFailing_lfgChecks (kmax : Nat) (e : Lfg) :
    firstFailing (lfgChecks kmax e) =
      if ¬ (1 ≤ e.cfg.j.toNat ∧ e.cfg.j.toNat < e.cfg.k.toNat) then some .lagWindow
      else if ¬ e.hlen = e.cfg.k.toNat then some .histLen
      else if ¬ e.cfg.k.toNat ≤ kmax then some .kRange
      else if ¬ 1 ≤ e.cfg.mod.toNat then some .modZero
      else if ¬ e.cfg.op.toNat ≤ 3 then some .fieldRange
      else none := by
  simp only [lfgChecks, firstFailing, decide_eq_true_eq, ite_not]

/-! ## ADV.LFG (R145, R146) -/

/-- The number of an operator in CFG.LFG.OP (R19). -/
def LfgOp.num : LfgOp → Nat
  | .add => 0
  | .sub => 1
  | .mul => 2
  | .xor => 3

theorem LfgOp.ofWord_of_toNat_eq {w : Word} {op : LfgOp} (h : w.toNat = op.num) : LfgOp.ofWord w = op := by
  cases op <;> simp [LfgOp.ofWord, h, LfgOp.num]

theorem tap_eq_of_getElem? {h : List Word} {p : Nat} {w : Word} (hw : h[p - 1]? = some w) : tap h p = w := by
  simp [tap, hw]

/-- The output of an advance with operator `op` and the words `u`, `v` at the taps, as an exact residue. -/
theorem lfgNext_toNat_of_taps {c : LfgCfg} {h : List Word} {u v : Word} (hm : 1 ≤ c.mod.toNat)
    (hu : h[c.j.toNat - 1]? = some u) (hv : h[c.k.toNat - 1]? = some v) (op : LfgOp) (hop : c.op.toNat = op.num) :
    ((lfgNext c h).toNat : Int) = op.apply u v % c.mod.toNat := by
  rw [lfgNext_toNat c h hm, LfgOp.ofWord_of_toNat_eq hop, tap_eq_of_getElem? hu, tap_eq_of_getElem? hv]

/-- The least non-negative residue of a negative difference, in natural numbers (R146). -/
theorem sub_emod_eq_natCast_of_lt {u v m : Nat} (hm : 1 ≤ m) (h : u < v) :
    ((u : Int) - v) % m = ((m - (v - u) % m) % m : Nat) := by
  have hle : (v - u) % m ≤ m := (Nat.mod_lt _ hm).le
  calc ((u : Int) - v) % m
      = (m - ((v - u : Nat) : Int) % m) % m := by
        rw [Int.sub_emod_emod, Nat.cast_sub h.le, sub_eq_add_neg (m : Int), neg_sub, Int.add_emod_left]
    _ = ((m - (v - u) % m) % m : Nat) := by rw [Int.natCast_emod, Nat.cast_sub hle, Int.natCast_emod]

end Sys2Proof.Machine

open Sys2Proof Sys2Proof.Machine

/-- Settles O35: the history is that of `WordMem.take`, and on both sides stands the same chain of conditions. -/
theorem consLfgChecksInOrder : Obligations.ConsLfgChecksInOrder := by
  refine ⟨rfl, fun s => ⟨s.lfg.seedHist.take s.lfg.cfg.k.toNat, WordMem.take_length _ _, WordMem.take_get _ _, ?_⟩⟩
  rw [show Instr.consLfg = .cons .lfg from rfl, exec_cons_eq_elim, State.checks, firstFailing_lfgChecks]
  dsimp only
  split_ifs <;> rfl

/-- Settles O44: the output is the residue of the exact value of each operator on the taps. -/
theorem advLfgCombinesAndAppends : Obligations.AdvLfgCombinesAndAppends := by
  refine ⟨rfl, fun s hv => (Executes.advFails .lfg hv).exec_eq, fun s u v hvalid ⟨hm, _⟩ hu hv => ?_⟩
  have hnext := lfgNext_toNat_of_taps hm hu hv
  refine ⟨lfgNext s.lfg.cfg s.lfg.hist, ?_, hnext .add, hnext .sub, fun hop hlt => ?_, hnext .mul, hnext .xor⟩
  · rw [List.drop_one]
    exact (Executes.adv .lfg hvalid).exec_eq
  · exact Nat.cast_injective ((hnext .sub hop).trans (sub_emod_eq_natCast_of_lt hm hlt))

/-- Settles O47: a push with room is a write at index HLEN, and one without changes no word. -/
theorem hpushAppendsOrSaturates : Obligations.HpushAppendsOrSaturates := by
  refine ⟨fun _ => rfl, fun v s hm => ?_⟩
  refine ⟨(s.lfg.push s.params.kmax v).seedHist, (s.lfg.push s.params.kmax v).hlen, (Executes.hpush v).exec_eq,
    fun hroom => ⟨?_, Lfg.read_push_room hm hroom v⟩, fun hfull => ?_⟩
  · rw [Lfg.push_room _ _ v hroom]
  · rw [Lfg.push_full _ _ v hfull]
    exact ⟨rfl, fun _ => rfl⟩

/-- Settles O48: the one outcome of HCLR is the state stated. -/
theorem hclrEmptiesTheCount : Obligations.HclrEmptiesTheCount := ⟨rfl, fun _ => Executes.hclr.exec_eq⟩

end

section
/-! R160 to R162: CONS.LFSR and ADV.LFSR on numbers, and when the register reaches zero. -/

namespace Sys2Proof.Machine

/-! ## CONS.LFSR (R160) -/

/-- The first failing check of CONS.LFSR, on the whole 64-bit registers (R160). -/
theorem firstFailing_lfsrChecks (c : LfsrCfg) :
    firstFailing (lfsrChecks c) =
      if c.seed = 0 then some .lfsrZeroSeed
      else if ¬ c.seed.toNat < 2 ^ 32 then some .fieldRange
      else if ¬ c.mask.toNat < 2 ^ 32 then some .fieldRange
      else none := by
  have hzero : c.seed.toNat = 0 ↔ c.seed = 0 := BitVec.toNat_inj (y := 0)
  simp only [lfsrChecks, firstFailing, decide_eq_true_eq, ne_eq, hzero, ite_not]

/-! ## ADV.LFSR (R162) -/

/-- The new register as a number: halved, and xored with the mask's low 32 bits if it was odd. -/
theorem lfsrNext_toNat (c : LfsrCfg) (r : Reg32) :
    (lfsrNext c r).toNat =
      if r.toNat % 2 = 1 then (r.toNat / 2) ^^^ (c.mask.toNat % 2 ^ 32) else r.toNat / 2 := by
  have hbit : r.getLsbD 0 = true ↔ r.toNat % 2 = 1 := by simp [BitVec.getLsbD, Nat.testBit_zero]
  have hshift : (r >>> 1).toNat = r.toNat / 2 := by rw [BitVec.toNat_ushiftRight, Nat.shiftRight_one]
  have hmask : (c.mask.extractLsb' 0 32).toNat = c.mask.toNat % 2 ^ 32 := by
    rw [BitVec.extractLsb'_toNat, Nat.shiftRight_zero]
  rw [lfsrNext]
  simp only [hbit]
  split_ifs
  · rw [BitVec.toNat_xor, hshift, hmask]
  · exact hshift

/-- Zero is a fixed point, whatever the mask (R162, corner case (a)). -/
@[simp] theorem lfsrNext_zero (c : LfsrCfg) : lfsrNext c 0 = 0 := by
  simp [lfsrNext]

/-- A register other than zero goes to zero only through the mask (R162, corner case (b)): an even one is halved to another than
zero, and an odd one is xored to zero exactly by its own half. -/
theorem lfsrNext_eq_zero_iff (c : LfsrCfg) {r : Reg32} (hr : r ≠ 0) :
    lfsrNext c r = 0 ↔ r.toNat % 2 = 1 ∧ r.toNat / 2 = c.mask.toNat % 2 ^ 32 := by
  have hpos : 0 < r.toNat := BitVec.toNat_pos_of_ne_zero hr
  rw [← BitVec.toNat_inj, lfsrNext_toNat, BitVec.ofNat_eq_ofNat, BitVec.toNat_zero]
  split_ifs with hodd
  · rw [Nat.xor_eq_zero_iff, and_iff_right hodd]
  · omega

end Sys2Proof.Machine

open Sys2Proof Sys2Proof.Machine

/-- Settles O36: on both sides the same chain of conditions, first of causes and then of states. -/
theorem consLfsrChecksInOrder : Obligations.ConsLfsrChecksInOrder := by
  refine ⟨rfl, fun s => ?_⟩
  dsimp only
  rw [show Instr.consLfsr = .cons .lfsr from rfl, exec_cons_eq_elim, State.checks, firstFailing_lfsrChecks]
  split_ifs <;> rfl

/-- Settles O50: the outcome of an advance, and the 32 bits of the register fit the output. -/
theorem advLfsrShiftsAndXors : Obligations.AdvLfsrShiftsAndXors :=
  ⟨rfl, fun _ hv => (Executes.advFails .lfsr hv).exec_eq, fun _ hv =>
    ⟨_, _, (Executes.adv .lfsr hv).exec_eq, lfsrNext_toNat _ _, BitVec.toNat_setWidth_of_le (by decide)⟩⟩

/-- Settles O51: corner cases (a) and (b) of R162. -/
theorem whenTheLfsrReachesZero : Obligations.WhenTheLfsrReachesZero :=
  fun c _ => ⟨lfsrNext_zero c, lfsrNext_eq_zero_iff c⟩

end

section
/-! R170 to R174: CONS.MSQ and ADV.MSQ on numbers, and the middle digits of a square. -/

namespace Sys2Proof.Machine

/-! ## CONS.MSQ (R170) -/

theorem msqDmax_eq (width : Word) : msqDmax width = if width.toNat = 0 then 9 else 19 :=
  if_congr (BitVec.toNat_inj (y := 0)).symm rfl rfl

theorem msqBits_eq (width : Word) : msqBits width = if width.toNat = 0 then 32 else 64 :=
  if_congr (BitVec.toNat_inj (y := 0)).symm rfl rfl

/-- The first failing check of CONS.MSQ, on numbers (R170). -/
theorem firstFailing_msqChecks (c : MsqCfg) :
    firstFailing (msqChecks c) =
      if ¬ c.width.toNat ≤ 1 then some .fieldRange
      else if ¬ c.digits.toNat ≤ (if c.width.toNat = 0 then 9 else 19) then some .msqDigits
      else if ¬ c.seed.toNat < 2 ^ (if c.width.toNat = 0 then 32 else 64) then some .fieldRange
      else none := by
  simp only [msqChecks, firstFailing, decide_eq_true_eq, ← msqDmax_eq, ← msqBits_eq, ite_not]

/-! ## The number of decimal digits (R173) -/

theorem ndigitsFrom_eq_log {fuel x : Nat} (h : x ≤ fuel) : ndigitsFrom fuel x = Nat.log 10 x + 1 := by
  induction fuel generalizing x with
  | zero => rw [Nat.le_zero.1 h, Nat.log_zero_right, ndigitsFrom]
  | succ fuel ih =>
    rw [ndigitsFrom]
    split_ifs with hx
    · rw [Nat.log_of_lt hx]
    · rw [ih (by omega), Nat.log_of_one_lt_of_le (by norm_num) (Nat.not_lt.1 hx)]

/-- One digit more than the logarithm; 0 has logarithm 0 and one digit. -/
theorem ndigits_eq_log (x : Nat) : ndigits x = Nat.log 10 x + 1 := ndigitsFrom_eq_log le_rfl

@[simp] theorem ndigits_zero : ndigits 0 = 1 := rfl

theorem ndigits_eq_of_pow_le_of_lt_pow {x l : Nat} (hl : 1 ≤ l) (hle : 10 ^ (l - 1) ≤ x) (hlt : x < 10 ^ l) :
    ndigits x = l := by
  obtain ⟨k, rfl⟩ := Nat.exists_eq_add_of_le' hl
  rw [ndigits_eq_log, Nat.log_eq_of_pow_le_of_lt_pow hle hlt, Nat.add_sub_cancel]

theorem ndigits_le_of_lt_pow {x l : Nat} (hl : l ≠ 0) (hlt : x < 10 ^ l) : ndigits x ≤ l := by
  rw [ndigits_eq_log]
  exact Nat.log_lt_of_lt_pow' hl hlt

/-! ## The middle digits on numbers (R173, R174) -/

/-- MID by the rendered width: what is dropped on the right is the greater half of the digits outside the window. -/
theorem mid_eq (sq n : Nat) :
    let wd := max (ndigits sq) (2 * n)
    mid sq n = if n = 0 then 0 else sq / 10 ^ (wd - n - (wd - n) / 2) % 10 ^ n := rfl

theorem sq_lt_ten_pow {x n : Nat} (hx : x < 10 ^ n) : x * x < 10 ^ (2 * n) := by
  rw [two_mul, pow_add]
  exact Nat.mul_lt_mul'' hx hx

/-- A square of at most 2n digits is rendered with 2n (R174). -/
theorem mid_of_lt {sq n : Nat} (hn : 1 ≤ n) (hsq : sq < 10 ^ (2 * n)) : mid sq n = sq / 10 ^ ((n + 1) / 2) % 10 ^ n := by
  have hr : 2 * n - n - (2 * n - n) / 2 = (n + 1) / 2 := by omega
  rw [mid_eq, if_neg (by omega), max_eq_right (ndigits_le_of_lt_pow (by omega) hsq), hr]

/-- Up to 19 digits fit the 64 bits of the output, at either width (R172). -/
theorem msqNext_toNat_of_digits_le {c : MsqCfg} (h : c.digits.toNat ≤ 19) (x : Word) :
    (msqNext c x).toNat = mid (x.toNat * x.toNat) c.digits.toNat := by
  have hfit : 10 ^ c.digits.toNat < 2 ^ 64 := ten_pow_lt_two_pow_msqBits (width := 1) h
  rw [msqNext, BitVec.toNat_ofNat]
  exact Nat.mod_eq_of_lt ((mid_lt _ _).trans hfit)

/-! ## The middle digits as text (R173) -/

/-- A number written in decimal, the first digit first; 0 is written with one digit. -/
def decimal (x : Nat) : List Nat := if x = 0 then [0] else (Nat.digits 10 x).reverse

/-- A list of digits, the first digit first, read as a decimal number. -/
def readDecimal (ds : List Nat) : Nat := ds.foldl (fun a d => 10 * a + d) 0

theorem readDecimal_eq_ofDigits (ds : List Nat) : readDecimal ds = Nat.ofDigits 10 ds.reverse := by
  simp only [readDecimal, Nat.ofDigits_eq_foldr, List.foldr_reverse, Nat.cast_id, add_comm]

theorem length_decimal (x : Nat) : (decimal x).length = ndigits x := by
  rw [decimal]
  split_ifs with hx
  · rw [hx, ndigits_zero, List.length_singleton]
  · rw [List.length_reverse, Nat.length_digits 10 x (by norm_num) hx, ndigits_eq_log]

theorem decimal_lt_ten {x d : Nat} (hd : d ∈ decimal x) : d < 10 := by
  rw [decimal] at hd
  split_ifs at hd
  · rw [List.mem_singleton.1 hd]
    norm_num
  · exact Nat.digits_lt_base (by norm_num) (List.mem_reverse.1 hd)

theorem readDecimal_decimal (x : Nat) : readDecimal (decimal x) = x := by
  rw [decimal]
  split_ifs with hx
  · exact hx.symm
  · rw [readDecimal_eq_ofDigits, List.reverse_reverse, Nat.ofDigits_digits]

theorem readDecimal_pad (k : Nat) (ds : List Nat) : readDecimal (List.replicate k 0 ++ ds) = readDecimal ds := by
  simp only [readDecimal_eq_ofDigits, List.reverse_append, List.reverse_replicate, Nat.ofDigits_append_replicate_zero]

/-- To take `n` digits out of a text with `r` digits behind them is to divide by 10^r and reduce modulo 10^n. -/
theorem readDecimal_window {ds : List Nat} {lead n r : Nat} (hds : ∀ d ∈ ds, d < 10) (hlen : ds.length = lead + n + r) :
    readDecimal ((ds.drop lead).take n) = readDecimal ds / 10 ^ r % 10 ^ n := by
  have hrev : ∀ d ∈ ds.reverse, d < 10 := fun d hd => hds d (List.mem_reverse.1 hd)
  have hwindow : ((ds.drop lead).take n).reverse = (ds.reverse.drop r).take n := by
    rw [List.reverse_take, List.reverse_drop, List.length_drop, List.drop_take, hlen]
    congr 2 <;> omega
  rw [readDecimal_eq_ofDigits, readDecimal_eq_ofDigits, hwindow, Nat.ofDigits_div_pow_eq_ofDigits_drop r (by norm_num) _ hrev,
    Nat.ofDigits_mod_pow_eq_ofDigits_take n (by norm_num) _ fun d hd => hrev d (List.mem_of_mem_drop hd)]

end Sys2Proof.Machine

open Sys2Proof Sys2Proof.Machine

/-- Settles O37: on both sides the same chain of conditions, first of causes and then of states. -/
theorem consMsqChecksInOrder : Obligations.ConsMsqChecksInOrder := by
  refine ⟨rfl, fun s => ?_⟩
  dsimp only
  rw [show Instr.consMsq = .cons .msq from rfl, exec_cons_eq_elim, State.checks, firstFailing_msqChecks]
  split_ifs <;> rfl

/-- Settles O52: the number of digits is the length of the square, and the middle digits fit the output. -/
theorem advMsqTakesTheMiddleDigits : Obligations.AdvMsqTakesTheMiddleDigits := by
  refine ⟨rfl, fun s hv => (Executes.advFails .msq hv).exec_eq, ?_⟩
  intro s l hv hdigits sq n hl
  have hlen : ndigits sq = l := by
    obtain ⟨hsq, rfl⟩ | ⟨hle, hlt, hpos⟩ := hl
    · rw [hsq, ndigits_zero]
    · exact ndigits_eq_of_pow_le_of_lt_pow hpos hle hlt
  have hy := msqNext_toNat_of_digits_le hdigits s.msq.x
  refine ⟨_, (Executes.adv .msq hv).exec_eq, ?_, hy.trans_lt (mid_lt _ _)⟩
  rw [← hlen]
  exact hy.trans (mid_eq sq n)

/-- Settles O53: the digits rendered are `Wd` in number and read as the square; the window is a quotient and a remainder. -/
theorem midReadsTheMiddleOfTheRenderedSquare : Obligations.MidReadsTheMiddleOfTheRenderedSquare := by
  intro sq n hn ds rendered lead
  have hdigits : ∀ d ∈ rendered, d < 10 := fun d hd => by
    rcases List.mem_append.1 hd with h | h
    · rw [List.eq_of_mem_replicate h]
      norm_num
    · exact decimal_lt_ten h
  have hlen : rendered.length = max (ndigits sq) (2 * n) := by
    have hds : ds.length = ndigits sq := length_decimal sq
    rw [List.length_append, List.length_replicate, hds]
    omega
  have hsplit : rendered.length = lead + n + (rendered.length - n - lead) := by omega
  calc mid sq n
      = sq / 10 ^ (rendered.length - n - lead) % 10 ^ n := by rw [mid_eq, if_neg (by omega), ← hlen]
    _ = readDecimal rendered / 10 ^ (rendered.length - n - lead) % 10 ^ n := by
        rw [show readDecimal rendered = sq from (readDecimal_pad _ _).trans (readDecimal_decimal sq)]
    _ = readDecimal ((rendered.drop lead).take n) := (readDecimal_window hdigits hsplit).symm

/-- Settles O54: an advance leaves digits of MID, and the square of a seed below 10^n has at most 2n digits. -/
theorem theSteadyStateMiddleSquare : Obligations.TheSteadyStateMiddleSquare := by
  refine ⟨fun s t hv hdigits ht => ?_, fun x n hn hx => ⟨sq_lt_ten_pow hx, mid_of_lt hn (sq_lt_ten_pow hx)⟩⟩
  cases (Executes.adv .msq hv).exec_eq.symm.trans ht
  exact (msqNext_toNat_of_digits_le hdigits s.msq.x).trans_lt (mid_lt _ _)

end

section
/-! R30, R200 to R205, R230, R231: the failure protocol, and reset at the ports. -/

namespace Sys2Proof.Machine

/-! ## Failures (R200, R201, R203) -/

/-- A command that does not answer OK answers with two zeros and changes nothing else (R200, R203). -/
theorem Executes.exists_eq_fail {i : Instr} {s t : State} {r : Response} (h : Executes s i t) (hr : t.rsp = some r)
    (hne : r.status ≠ .ok) : ∃ cause, r = ⟨cause, 0, 0⟩ ∧ t = s.fail cause := by
  cases h with
  | illFormed | consFails | advFails =>
    cases hr
    exact ⟨_, rfl, rfl⟩
  | wrcfg | rdcfg | ldpreLcg | ldpreLeh | cons | adv | hpush | hclr =>
    cases hr
    exact absurd rfl hne

/-- A legal command that does not answer OK is a CONS with a ConfigurationError or an ADV of an engine that is not
constructed (R201). -/
theorem Executes.fails_cases {i : Instr} {s t : State} {r : Response} (h : Executes s i t) (hwf : i.wf = true)
    (hr : t.rsp = some r) (hne : r.status ≠ .ok) :
    (∃ e, i = .cons e ∧ r.status.isConfigurationError = true) ∨
      (∃ e, i = .adv e ∧ r.status = .notConstructed ∧ s.valid e = false) := by
  cases h with
  | illFormed _ hnot => simp [hwf] at hnot
  | consFails e cause hc =>
    cases hr
    exact .inl ⟨e, rfl, checks_cause s e cause hc⟩
  | advFails e hv =>
    cases hr
    exact .inr ⟨e, rfl, rfl, hv⟩
  | wrcfg | rdcfg | ldpreLcg | ldpreLeh | cons | adv | hpush | hclr =>
    cases hr
    exact absurd rfl hne

/-- A legal command is never answered ILLEGAL_CMD. -/
theorem Executes.rsp_ne_illegalCmd {i : Instr} {s t : State} (h : Executes s i t) (hwf : i.wf = true) :
    t.rsp ≠ some ⟨.illegalCmd, 0, 0⟩ := by
  intro hr
  obtain ⟨-, -, hstatus⟩ | ⟨-, -, hstatus, -⟩ := h.fails_cases hwf hr (by decide) <;> cases hstatus

end Sys2Proof.Machine

open Sys2Proof Sys2Proof.Machine

/-- Settles O11: an illegal word is answered with zeros, and so is every outcome of a command that is not OK. -/
theorem aFailureIsAResponseAndNothingElse : Obligations.AFailureIsAResponseAndNothingElse := by
  intro s t c es hh ht
  obtain ⟨r, hr⟩ := Option.isSome_iff_exists.1 (rsp_isSome_of_step_command hh ht)
  refine ⟨r, hr, fun hne => ?_⟩
  have hfail : ∃ cause, r = ⟨cause, 0, 0⟩ ∧ t = (s.withHost es).fail cause := by
    rw [step_command hh] at ht
    cases hd : decode c with
    | error x =>
      rw [accept_error hd] at ht
      cases ht
      cases hr
      exact ⟨_, rfl, rfl⟩
    | ok i =>
      rw [accept_ok hd] at ht
      exact (exec_eq_next_iff.1 ht).exists_eq_fail hr hne
  obtain ⟨cause, rfl, rfl⟩ := hfail
  exact ⟨rfl, rfl, rfl⟩

/-- Settles O12: a legal word decodes to a legal command, which is never answered ILLEGAL_CMD; any other word is. -/
theorem whichCommandsFailAndHow : Obligations.WhichCommandsFailAndHow := by
  refine ⟨fun s t c es hh ht => ?_, fun i s t r hwf ht hr hne => (exec_eq_next_iff.1 ht).fails_cases hwf hr hne⟩
  obtain ⟨-, -, hwords⟩ := theLegalWordsAreThe67OfTheTable
  obtain ⟨-, hlegal, hillegal⟩ := hwords c
  constructor
  · intro hw
    cases (hillegal hw s es hh).symm.trans ht
    rfl
  · intro hr hw
    obtain ⟨i, hd⟩ := hlegal hw
    obtain ⟨hwf, -⟩ := decode_eq_ok_iff.1 hd
    rw [step_command hh, accept_ok hd] at ht
    exact (exec_eq_next_iff.1 ht).rsp_ne_illegalCmd hwf hr

/-- Settles O32, by the two outcomes of CONS: the first failing check is the one behind the checks that hold. -/
theorem consSucceedsExactlyWhenAllChecksHold : Obligations.ConsSucceedsExactlyWhenAllChecksHold := by
  refine fun e s => ⟨fun hall => ?_, fun before cause after hsplit hbefore => ?_⟩
  · have hx := Executes.cons e ((firstFailing_eq_none (s.checks e)).2 hall)
    refine ⟨_, hx.exec_eq, rfl, by simp, by simp, by simp, by simp, fun e' he => hx.frame (by simpa using he)⟩
  · have hfirst : firstFailing (s.checks e) = some cause := by
      rw [hsplit, firstFailing_append before _ hbefore]
      rfl
    exact (Executes.consFails e cause hfirst).exec_eq

/-- Settles O13: the fifteen statuses, one by one. -/
theorem statusCodesAreThoseOfR202 : Obligations.StatusCodesAreThoseOfR202 :=
  ⟨rfl, rfl, fun st => by cases st <;> decide⟩

/-- Settles O59: the edge takes the step of a reset event. -/
theorem resetAbandonsTheCommandInFlight : Obligations.ResetAbandonsTheCommandInFlight := by
  intro lat p i hr
  have hcore : (p.clock lat i).core = State.resetOf p.core.params := by
    rw [Port.clock_reset hr]
    rfl
  refine ⟨if_pos hr, by rw [Port.clock_reset hr], ?_⟩
  rw [hcore]
  exact ⟨State.valid_resetOf _, State.readCfg_resetOf _, rfl, rfl, rfl, rfl⟩

end

section
/-! R185 to R189: CONS.WH and ADV.WH on numbers, and NUM as the exact fraction. -/

namespace Sys2Proof.Machine

/-- The first failing check of CONS.WH, on the whole 64-bit registers: there is one cause (R185). -/
theorem firstFailing_whChecks (c : WhCfg) :
    firstFailing (whChecks c) =
      if (1 ≤ c.seed0.toNat ∧ c.seed0.toNat ≤ 30000) ∧ (1 ≤ c.seed1.toNat ∧ c.seed1.toNat ≤ 30000) ∧
          (1 ≤ c.seed2.toNat ∧ c.seed2.toNat ≤ 30000) then none
      else some .whSeedRange := by
  simp only [whChecks, firstFailing, whSeedOk, decide_eq_true_eq, ite_and]

/-- NUM fits `rsp_aux` (R189). -/
theorem whNum_toWord (a b c : Reg15) : (BitVec.ofNat 64 (whNum a b c)).toNat = whNum a b c := by
  have := whNum_lt a b c
  rw [BitVec.toNat_ofNat]
  exact Nat.mod_eq_of_lt (by omega)

/-- NUM with its coefficients as products of two moduli (R189). -/
theorem whNum_eq (a b c : Reg15) :
    whNum a b c =
      (a.toNat * (30307 * 30323) + b.toNat * (30269 * 30323) + c.toNat * (30269 * 30307)) % (30269 * 30307 * 30323) := rfl

/-- NUM over DEN is the fractional part of the sum of the three quotients (R189). -/
theorem whNum_div_eq_fract (a b c : Reg15) :
    (whNum a b c : ℚ) / 27817185604309 =
      Int.fract ((a.toNat : ℚ) / 30269 + (b.toNat : ℚ) / 30307 + (c.toNat : ℚ) / 30323) := by
  have hsum : (a.toNat : ℚ) / 30269 + (b.toNat : ℚ) / 30307 + (c.toNat : ℚ) / 30323 =
      ((a.toNat * 918999161 + b.toNat * 917846887 + c.toNat * 917362583 : ℕ) : ℚ) / (27817185604309 : ℕ) := by
    push_cast
    ring
  rw [hsum, Int.fract_div_natCast_eq_div_natCast_mod, whNum]
  norm_cast

end Sys2Proof.Machine

open Sys2Proof Sys2Proof.Machine

/-- Settles O38: the registers get the low 15 bits of the seeds, whichever outcome the range check selects. -/
theorem consWhChecksInOrder : Obligations.ConsWhChecksInOrder := by
  refine ⟨rfl, fun s => ?_⟩
  dsimp only
  exact exec_cons_of_firstFailing_eq_ite (e := .wh) (firstFailing_whChecks s.wh.cfg)

/-- Settles O55: the outcome of an advance; its moduli fit the registers, and the row of R29 is kept. -/
theorem advWhAnswersBeforeItMoves : Obligations.AdvWhAnswersBeforeItMoves := by
  refine ⟨rfl, fun s hv => (Executes.advFails .wh hv).exec_eq, fun s hv => ?_⟩
  refine ⟨_, _, _, _, (Executes.adv .wh hv).exec_eq, whNext_toNat _ _ _ (by norm_num) (by norm_num),
    whNext_toNat _ _ _ (by norm_num) (by norm_num), whNext_toNat _ _ _ (by norm_num) (by norm_num), whNum_toWord _ _ _,
    fun hrow => ?_⟩
  obtain ⟨h0, h1, h2⟩ := Wh.row_next hrow
  exact ⟨⟨h0.1, Nat.lt_succ_of_le h0.2⟩, ⟨h1.1, Nat.lt_succ_of_le h1.2⟩, ⟨h2.1, Nat.lt_succ_of_le h2.2⟩⟩

/-- Settles O56: the response of an advance, and the sum of the quotients over their common denominator. -/
theorem theNumeratorIsTheExactFraction : Obligations.TheNumeratorIsTheExactFraction := by
  refine ⟨fun s t hv ht => ?_, fun a b c => ⟨?_, whNum_eq a b c, whNum_div_eq_fract a b c⟩⟩
  · cases (Executes.adv .wh hv).exec_eq.symm.trans ht
    exact ⟨_, rfl, whNum_toWord _ _ _⟩
  · simpa using whNum_lt a b c

end

section
/-! R190: the default WH_FLOAT. Every operation rounds the exact result to 53 bits, and the pattern stands for the number. -/

namespace Sys2Proof.Machine

/-! ## One rounding -/

/-- What rounding handles: 0, and the positive numbers for which `roundQuotient` has room. -/
def inRoundingRange (x : ℚ) : Prop := (x = 0 ∨ 1 / 2 ^ 64 ≤ x) ∧ x < 2 ^ 52

/-- What rounding answers: 0, or a 53-bit significand over a power of two up to 2^116. -/
def Scaled.isRounded (a : Scaled) : Prop := a.num = 0 ∨ (2 ^ 52 ≤ a.num ∧ a.num ≤ 2 ^ 53 ∧ a.sh ≤ 116)

/-- Only one power of two scales a number into [2^52, 2^53). -/
theorem binade_unique {x : ℚ} {e e' : Int} (h : 2 ^ 52 ≤ x * 2 ^ e ∧ x * 2 ^ e < 2 ^ 53)
    (h' : 2 ^ 52 ≤ x * 2 ^ e' ∧ x * 2 ^ e' < 2 ^ 53) : e = e' := by
  wlog hle : e ≤ e' generalizing e e'
  · exact (this h' h (le_of_not_ge hle)).symm
  refine hle.eq_or_lt.resolve_right fun hlt => ?_
  have hpow : (2 : ℚ) * 2 ^ e ≤ 2 ^ e' := by
    rw [← zpow_one_add₀ two_ne_zero]
    exact zpow_le_zpow_right₀ one_le_two (by omega)
  have hx : 0 ≤ x := le_of_lt (pos_of_mul_pos_left (by linarith) (by positivity))
  have := mul_le_mul_of_nonneg_left hpow hx
  linarith

section RoundQuotient

variable {n d : Nat} (hd : 0 < d) (hx : inRoundingRange ((n : ℚ) / d))
include hd hx

/-- The range of the quotient as the integer bounds `roundQuotient_rounds` asks for. -/
theorem inRoundingRange.nat_bounds (hn : n ≠ 0) : d ≤ n * 2 ^ 64 ∧ n < d * 2 ^ 52 := by
  obtain ⟨hlo, hhi⟩ := hx
  have hd' : (0 : ℚ) < d := by exact_mod_cast hd
  have hlo := hlo.resolve_left (by positivity)
  rw [div_le_div_iff₀ (by positivity) hd', one_mul] at hlo
  rw [div_lt_iff₀' hd'] at hhi
  exact ⟨by exact_mod_cast hlo, by exact_mod_cast hhi⟩

/-- The quotient is rounded to nearest, ties to even. -/
theorem roundQuotient_roundsTo : roundsTo ((n : ℚ) / d) (roundQuotient n d).value := by
  rcases eq_or_ne n 0 with rfl | hn
  · exact .inl ⟨by simp, by simp [Scaled.value]⟩
  · obtain ⟨hlo, hhi⟩ := hx.nat_bounds hd hn
    exact (roundQuotient_rounds n d hd hlo hhi).1

/-- The scale of the result puts the quotient into [2^52, 2^53). -/
theorem roundQuotient_binade (hn : n ≠ 0) :
    2 ^ 52 ≤ (n : ℚ) / d * 2 ^ (roundQuotient n d).sh ∧ (n : ℚ) / d * 2 ^ (roundQuotient n d).sh < 2 ^ 53 := by
  obtain ⟨hlo, hhi⟩ := hx.nat_bounds hd hn
  have hscale := roundQuotient_scale n d hd hlo hhi
  have hsh : (roundQuotient n d).sh = 116 - Nat.log2 (n * 2 ^ 64 / d) := by simp [roundQuotient, hn]
  have hd' : (0 : ℚ) < d := by exact_mod_cast hd
  rw [← hsh] at hscale
  rw [div_mul_eq_mul_div, le_div_iff₀ hd', div_lt_iff₀ hd']
  exact_mod_cast hscale

/-- The significand is the integer nearest to the quotient at the scale of the result. -/
theorem roundQuotient_num_near : |((roundQuotient n d).num : ℚ) - (n : ℚ) / d * 2 ^ (roundQuotient n d).sh| ≤ 1 / 2 := by
  rcases eq_or_ne n 0 with rfl | hn
  · simp
  · have hbinade := roundQuotient_binade hd hx hn
    obtain ⟨h0, -⟩ | ⟨q, e, hy, hbinade', hnear, -⟩ := roundQuotient_roundsTo hd hx
    · exact absurd h0 (by positivity)
    · obtain rfl : e = (roundQuotient n d).sh := binade_unique hbinade' (by simpa only [zpow_natCast] using hbinade)
      rw [zpow_natCast] at hy hnear
      rwa [(div_left_inj' (by positivity)).1 hy]

/-- The significand of a result other than 0 has its leading bit. -/
theorem roundQuotient_num_ge (hn : n ≠ 0) : 2 ^ 52 ≤ (roundQuotient n d).num := by
  have hnear := (abs_le.1 (roundQuotient_num_near hd hx)).1
  obtain ⟨hbinade, -⟩ := roundQuotient_binade hd hx hn
  have : (2 ^ 52 : ℚ) < ((roundQuotient n d).num + 1 : ℕ) := by
    push_cast
    linarith
  exact Nat.le_of_lt_succ (by exact_mod_cast this)

/-- The result is rounded, even where rounding carries into the next power of two. -/
theorem roundQuotient_isRounded : (roundQuotient n d).isRounded := by
  rcases eq_or_ne n 0 with rfl | hn
  · exact .inl rfl
  · obtain ⟨hlo, hhi⟩ := hx.nat_bounds hd hn
    exact .inr ⟨roundQuotient_num_ge hd hx hn, (roundQuotient_rounds n d hd hlo hhi).2⟩

/-- Rounding adds at most half a unit, and a unit is at most 1. -/
theorem roundQuotient_value_le : (roundQuotient n d).value ≤ (n : ℚ) / d + 1 / 2 := by
  have hnear := (abs_le.1 (roundQuotient_num_near hd hx)).2
  rw [Scaled.value, div_le_iff₀ (by positivity), add_mul]
  have : (1 : ℚ) ≤ 2 ^ (roundQuotient n d).sh := one_le_pow₀ one_le_two
  linarith

end RoundQuotient

/-! ## The operations of R190 -/

/-- No other integer is nearer to a number than one at most half away. -/
theorem abs_sub_le_of_near {x : ℚ} {q : Nat} (h : |(q : ℚ) - x| ≤ 1 / 2) (q' : Nat) : |(q : ℚ) - x| ≤ |(q' : ℚ) - x| := by
  rcases eq_or_ne q' q with rfl | hne
  · exact le_rfl
  · have hdist : (1 : ℚ) ≤ |(q' : ℚ) - q| := by
      have : (1 : Int) ≤ |(q' : Int) - q| := Int.one_le_abs (by omega)
      exact_mod_cast this
    have htriangle := abs_sub_le (q' : ℚ) x q
    rw [abs_sub_comm x] at htriangle
    linarith

/-- The quotients of the engine are below 2: a register has 15 bits. -/
theorem quotient_lt_two (a : Reg15) {m : Nat} (hm : 30269 ≤ m) : (a.toNat : ℚ) / m < 2 := by
  have ha := a.isLt
  have hlt : (a.toNat : ℚ) < 2 * m := by exact_mod_cast (by omega : a.toNat < 2 * m)
  exact (div_lt_iff₀ (by positivity)).2 hlt

/-- The quotients of the engine are in the range of rounding. -/
theorem inRoundingRange_quotient (a : Reg15) {m : Nat} (hm : 30269 ≤ m ∧ m ≤ 30323) : inRoundingRange ((a.toNat : ℚ) / m) := by
  obtain ⟨hlo, hhi⟩ := hm
  refine ⟨?_, (quotient_lt_two a hlo).trans (by norm_num)⟩
  rcases Nat.eq_zero_or_pos a.toNat with h0 | hpos
  · exact .inl (by simp [h0])
  · have hm0 : (0 : ℚ) < m := by exact_mod_cast (by omega : 0 < m)
    have hle : 1 * (m : ℚ) ≤ a.toNat * 2 ^ 64 := by exact_mod_cast (by omega : 1 * m ≤ a.toNat * 2 ^ 64)
    exact .inr ((div_le_div_iff₀ (by positivity) hm0).2 hle)

/-- `fadd` rounds a quotient of integers that is the exact sum. -/
theorem fadd_quotient (x y : Scaled) :
    ((x.num * 2 ^ y.sh + y.num * 2 ^ x.sh : ℕ) : ℚ) / (2 ^ (x.sh + y.sh) : ℕ) = x.value + y.value := by
  rw [Scaled.value, Scaled.value]
  push_cast
  field_simp
  ring

section Fadd

variable {x y : Scaled} (h : inRoundingRange (x.value + y.value))
include h

/-- An addition is the exact sum, rounded to nearest even. -/
theorem fadd_roundsTo : roundsTo (x.value + y.value) (fadd x y).value := by
  rw [← fadd_quotient] at h ⊢
  exact roundQuotient_roundsTo (by positivity) h

theorem fadd_isRounded : (fadd x y).isRounded := by
  rw [← fadd_quotient] at h
  exact roundQuotient_isRounded (by positivity) h

theorem fadd_value_le : (fadd x y).value ≤ x.value + y.value + 1 / 2 := by
  rw [← fadd_quotient] at h ⊢
  exact roundQuotient_value_le (by positivity) h

end Fadd

/-- A rounded number is 0 or at least 2^52 / 2^116. -/
theorem Scaled.isRounded.value_cases {a : Scaled} (h : a.isRounded) : a.value = 0 ∨ 1 / 2 ^ 64 ≤ a.value := by
  obtain h0 | ⟨hnum, -, hsh⟩ := h
  · exact .inl (by simp [Scaled.value, h0])
  · have hnum' : (2 ^ 52 : ℚ) ≤ a.num := by exact_mod_cast hnum
    have hpow : (2 : ℚ) ^ a.sh ≤ 2 ^ 116 := pow_le_pow_right₀ one_le_two hsh
    rw [Scaled.value, div_le_div_iff₀ (by positivity) (by positivity)]
    exact .inr (by linarith)

/-- The sum of two rounded numbers is not too small to be rounded again. -/
theorem Scaled.isRounded.inRoundingRange_add {x y : Scaled} (hx : x.isRounded) (hy : y.isRounded)
    (hlt : x.value + y.value < 2 ^ 52) : inRoundingRange (x.value + y.value) := by
  refine ⟨?_, hlt⟩
  have hx0 : 0 ≤ x.value := div_nonneg (by positivity) (by positivity)
  obtain hy0 | hy1 := hy.value_cases
  · rw [hy0, add_zero]
    exact hx.value_cases
  · exact .inr (by linarith)

/-- The remainder by 1.0 is the fractional part. -/
theorem fmod1_value (x : Scaled) : (fmod1 x).value = Int.fract x.value := by
  have := Int.fract_div_natCast_eq_div_natCast_mod (k := ℚ) (m := x.num) (n := 2 ^ x.sh)
  simpa [Scaled.value, fmod1] using this.symm

theorem fmod1_num_lt (x : Scaled) : (fmod1 x).num < 2 ^ (fmod1 x).sh := Nat.mod_lt _ (by positivity)

/-! ## The pattern of a number -/

/-- The numbers `binary64Bits` gives the pattern of: 0, and an integer up to 2^53 over a power of two up to 2^116. -/
def Scaled.hasPattern (a : Scaled) : Prop := a.num = 0 ∨ (a.num ≤ 2 ^ 53 ∧ a.sh ≤ 116)

theorem Scaled.isRounded.hasPattern_fmod1 {a : Scaled} (h : a.isRounded) : (fmod1 a).hasPattern := by
  obtain h0 | ⟨-, hnum, hsh⟩ := h
  · exact .inl (by simp [fmod1, h0])
  · exact .inr ⟨(Nat.mod_le _ _).trans hnum, hsh⟩

/-- A number up to 2^53 has a leading 1 and 52 bits behind it, exactly. -/
theorem exists_fraction {n : Nat} (h0 : n ≠ 0) (hn : n ≤ 2 ^ 53) :
    ∃ f < 2 ^ 52, n * 2 ^ 52 = 2 ^ Nat.log2 n * (2 ^ 52 + f) := by
  have hle := Nat.log2_self_le h0
  have hlt := Nat.lt_log2_self (n := n)
  have hdvd : 2 ^ Nat.log2 n ∣ n * 2 ^ 52 := by
    rcases hn.eq_or_lt with rfl | hn
    · rw [Nat.log2_two_pow]
      exact Nat.dvd_mul_right _ _
    · have := (Nat.log2_lt h0).2 hn
      exact (pow_dvd_pow 2 (by omega)).mul_left n
  obtain ⟨c, hc⟩ := hdvd
  have hpos : 0 < 2 ^ Nat.log2 n := by positivity
  have hc52 : 2 ^ 52 ≤ c := Nat.le_of_mul_le_mul_left (hc ▸ Nat.mul_le_mul_right _ hle) hpos
  have hc53 : c < 2 ^ 53 := by
    refine Nat.lt_of_mul_lt_mul_left (a := 2 ^ Nat.log2 n) (hc ▸ ?_)
    rw [pow_succ] at hlt
    omega
  exact ⟨c - 2 ^ 52, by omega, by rw [hc, Nat.add_sub_cancel' hc52]⟩

/-- The fields of a pattern: the biased exponent, and the fraction behind the leading 1. -/
theorem exists_binary64Bits_toNat {a : Scaled} (h0 : a.num ≠ 0) (h : a.hasPattern) :
    ∃ e f, (binary64Bits a).toNat = e * 2 ^ 52 + f ∧ f < 2 ^ 52 ∧ 1 ≤ e ∧ e < 2 ^ 11 - 1 ∧ e + a.sh = 1023 + Nat.log2 a.num ∧
      a.num * 2 ^ 52 = 2 ^ Nat.log2 a.num * (2 ^ 52 + f) := by
  obtain ⟨hnum, hsh⟩ := h.resolve_left h0
  obtain ⟨f, hf, hfrac⟩ := exists_fraction h0 hnum
  have hlog : Nat.log2 a.num < 54 := (Nat.log2_lt h0).2 (by omega)
  refine ⟨1023 + Nat.log2 a.num - a.sh, f, ?_, hf, by omega, by omega, by omega, hfrac⟩
  rw [binary64Bits, if_neg h0]
  dsimp only
  rw [hfrac, Nat.mul_div_cancel_left _ (by positivity), Nat.add_sub_cancel_left, BitVec.toNat_ofNat]
  omega

/-- A pattern with a normal exponent and sign 0, read as a number. -/
theorem binary64Value_of_fields {w : Word} {e f : Nat} (hw : w.toNat = e * 2 ^ 52 + f) (hf : f < 2 ^ 52) (he : 1 ≤ e)
    (he' : e < 2 ^ 11 - 1) : binary64Value w = ((2 ^ 52 + f : Nat) : ℚ) * 2 ^ ((e : Int) - 1075) := by
  have hsign : ¬ w.toNat / 2 ^ 63 = 1 := by omega
  have hexp : w.toNat / 2 ^ 52 % 2 ^ 11 = e := by omega
  have hfrac : w.toNat % 2 ^ 52 = f := by omega
  simp only [binary64Value, hsign, hexp, hfrac, if_false, one_mul, if_neg (Nat.ne_of_gt he)]

/-- The pattern stands for the number. -/
theorem binary64Value_binary64Bits {a : Scaled} (h : a.hasPattern) : binary64Value (binary64Bits a) = a.value := by
  by_cases h0 : a.num = 0
  · simp [binary64Bits, binary64Value, Scaled.value, h0]
  · obtain ⟨e, f, hw, hf, he, he', hexp, hfrac⟩ := exists_binary64Bits_toNat h0 h
    have hpow : (2 : ℚ) ^ ((e : Int) - 1075) = 2 ^ Nat.log2 a.num / (2 ^ 52 * 2 ^ a.sh) := by
      rw [show (e : Int) - 1075 = (Nat.log2 a.num : Int) - (52 + a.sh : ℕ) by omega, zpow_sub₀ two_ne_zero, zpow_natCast,
        zpow_natCast, pow_add]
    have hfrac' : (a.num : ℚ) * 2 ^ 52 = 2 ^ Nat.log2 a.num * (2 ^ 52 + f : ℕ) := by exact_mod_cast hfrac
    rw [binary64Value_of_fields hw hf he he', hpow, Scaled.value, mul_div_assoc', mul_comm _ (_ ^ _), ← hfrac']
    field_simp

/-- The pattern is 0 or that of a normal number. -/
theorem binary64Bits_normal {a : Scaled} (h : a.hasPattern) : binary64Bits a = 0 ∨ 2 ^ 52 ≤ (binary64Bits a).toNat := by
  by_cases h0 : a.num = 0
  · exact .inl (if_pos h0)
  · obtain ⟨e, f, hw, -, he, -⟩ := exists_binary64Bits_toNat h0 h
    exact .inr (by omega)

/-- The pattern of a number below 1 is below the pattern of 1.0. -/
theorem binary64Bits_lt_one {a : Scaled} (h : a.hasPattern) (hlt : a.num < 2 ^ a.sh) :
    (binary64Bits a).toNat < 0x3FF0000000000000 := by
  by_cases h0 : a.num = 0
  · simp [binary64Bits, h0]
  · obtain ⟨e, f, hw, hf, -, -, hexp, -⟩ := exists_binary64Bits_toNat h0 h
    have := (Nat.log2_lt h0).2 hlt
    omega

/-! ## The output -/

/-- The three quotients added left to right, before the remainder by 1.0 (R190). -/
def whSum (a b c : Reg15) : Scaled := fadd (fadd (fdiv a.toNat 30269) (fdiv b.toNat 30307)) (fdiv c.toNat 30323)

theorem whFloat_binary64 (a b c : Reg15) : whFloat .binary64 a b c = binary64Bits (fmod1 (whSum a b c)) := rfl

section Fdiv

variable (a : Reg15) {m : Nat} (hm : 30269 ≤ m ∧ m ≤ 30323)
include hm

/-- A division of the engine is rounded to nearest, ties to even. -/
theorem fdiv_roundsTo : roundsTo ((a.toNat : ℚ) / m) (fdiv a.toNat m).value :=
  roundQuotient_roundsTo (by omega) (inRoundingRange_quotient a hm)

theorem fdiv_isRounded : (fdiv a.toNat m).isRounded :=
  roundQuotient_isRounded (by omega) (inRoundingRange_quotient a hm)

theorem fdiv_value_le : (fdiv a.toNat m).value ≤ 5 / 2 := by
  have hle : (fdiv a.toNat m).value ≤ (a.toNat : ℚ) / m + 1 / 2 :=
    roundQuotient_value_le (by omega) (inRoundingRange_quotient a hm)
  have := quotient_lt_two a hm.1
  linarith

/-- The significand of a division has 53 bits, or carries into 2^53, and no other is nearer to the quotient. -/
theorem fdiv_nearest (ha : a ≠ 0) :
    (2 ^ 52 ≤ (fdiv a.toNat m).num ∧ (fdiv a.toNat m).num ≤ 2 ^ 53) ∧
      ∀ q' : Nat, |((fdiv a.toNat m).num : ℚ) / 2 ^ (fdiv a.toNat m).sh - (a.toNat : ℚ) / m| ≤
        |(q' : ℚ) / 2 ^ (fdiv a.toNat m).sh - (a.toNat : ℚ) / m| := by
  have hx := inRoundingRange_quotient a hm
  have hd : 0 < m := by omega
  have hn : a.toNat ≠ 0 := (BitVec.toNat_pos_of_ne_zero ha).ne'
  have hnum : 2 ^ 52 ≤ (fdiv a.toNat m).num := roundQuotient_num_ge hd hx hn
  obtain ⟨-, hmax, -⟩ := (fdiv_isRounded a hm).resolve_left (by omega)
  refine ⟨⟨hnum, hmax⟩, fun q' => ?_⟩
  have hscale (q : ℚ) {p : ℚ} (hp : 0 < p) (x : ℚ) : |q / p - x| = |q - x * p| / p := by
    rw [← abs_of_pos hp, ← abs_div, abs_of_pos hp, sub_div, mul_div_cancel_right₀ _ hp.ne']
  rw [hscale _ (by positivity), hscale _ (by positivity)]
  exact div_le_div_of_nonneg_right (abs_sub_le_of_near (roundQuotient_num_near hd hx) q') (by positivity)

end Fdiv

/-- The sum of the first two quotients can be rounded. -/
theorem inRoundingRange_firstSum (a b : Reg15) :
    inRoundingRange ((fdiv a.toNat 30269).value + (fdiv b.toNat 30307).value) := by
  have ha := fdiv_value_le a (m := 30269) (by norm_num)
  have hb := fdiv_value_le b (m := 30307) (by norm_num)
  exact (fdiv_isRounded a (by norm_num)).inRoundingRange_add (fdiv_isRounded b (by norm_num)) (by linarith)

/-- So can that sum and the third quotient. -/
theorem inRoundingRange_secondSum (a b c : Reg15) :
    inRoundingRange ((fadd (fdiv a.toNat 30269) (fdiv b.toNat 30307)).value + (fdiv c.toNat 30323).value) := by
  have ha := fdiv_value_le a (m := 30269) (by norm_num)
  have hb := fdiv_value_le b (m := 30307) (by norm_num)
  have hc := fdiv_value_le c (m := 30323) (by norm_num)
  have hab := fadd_value_le (inRoundingRange_firstSum a b)
  exact (fadd_isRounded (inRoundingRange_firstSum a b)).inRoundingRange_add (fdiv_isRounded c (by norm_num)) (by linarith)

/-- What the remainder by 1.0 leaves of the sum has a pattern. -/
theorem hasPattern_fmod1_whSum (a b c : Reg15) : (fmod1 (whSum a b c)).hasPattern :=
  (fadd_isRounded (inRoundingRange_secondSum a b c)).hasPattern_fmod1

end Sys2Proof.Machine

open Sys2Proof Sys2Proof.Machine

/-- Settles O57: every operation of R190 is one rounding in its range, and the remainder by 1.0 has an exact pattern. -/
theorem theDefaultFloatRoundsAndIsBelowOne : Obligations.TheDefaultFloatRoundsAndIsBelowOne := by
  refine ⟨fun a m hm ha => fdiv_nearest a (by omega) ha, fun x y hlo hhi => fadd_roundsTo ⟨.inr hlo, hhi⟩, fmod1_value,
    fun a b c => ?_, fun a b c => binary64Bits_lt_one (hasPattern_fmod1_whSum a b c) (fmod1_num_lt _)⟩
  refine ⟨_, _, _, _, (whSum a b c).value, fdiv_roundsTo a (m := 30269) (by norm_num),
    fdiv_roundsTo b (m := 30307) (by norm_num), fdiv_roundsTo c (m := 30323) (by norm_num), fadd_roundsTo (inRoundingRange_firstSum a b),
    fadd_roundsTo (inRoundingRange_secondSum a b c), ?_, binary64Bits_normal (hasPattern_fmod1_whSum a b c)⟩
  rw [whFloat_binary64, binary64Value_binary64Bits (hasPattern_fmod1_whSum a b c), fmod1_value]

end
